-- ==== Sys2Proof/Word.lean ====
section
/-! DEFINITION. The word types of MBSM-CORE (spec/00_scope.md R14, R16: every value is unsigned). -/

namespace Sys2Proof

/-- A frame byte (R14: "Every frame byte is 8 bits"). -/
abbrev Byte := BitVec 8

/-- A 16-bit value: an address, a quantity, a register-buffer entry, a CRC (R14). -/
abbrev HWord := BitVec 16

/-- A 32-bit value: a counter (R12), a timer reading (R13), a configuration register (R30). -/
abbrev Word := BitVec 32

end Sys2Proof
end

