-- ==== Sys2Proof/Config.lean ====
section
/-! DEFINITION. What an implementation fixes (spec/00_scope.md R9 to R11) and the values the spec leaves
free: each free value is an opaque constant, so nothing can be proved of its value. -/

namespace Sys2Proof

/-- The byte-count rule for coil data, P_COIL_RULE (R11). -/
inductive CoilRule where
  | source
  | modbus
deriving DecidableEq, Repr

/-- The implementation parameters the spec takes as arguments (R9, R10, R11). -/
structure Params where
  /-- P_FRAME_CAP, the frame buffer's capacity in bytes (R9). -/
  frameCap : Nat
  /-- P_EARLY_POLLS, the poll iterations before the early CRC check (R10). -/
  earlyPolls : Nat
  /-- P_COIL_RULE (R11). -/
  coilRule : CoilRule
deriving DecidableEq, Repr

/-- R9 admits capacities 9..256. -/
abbrev Params.admitted (p : Params) : Prop := 9 ≤ p.frameCap ∧ p.frameCap ≤ 256

namespace Config

/-- P_EARLY_POLLS of the reference machine: OPEN (R10), no source gives it. -/
opaque earlyPolls : Nat

/-- `draw()`, a byte with no law (R18, R62): the k-th free value used. -/
opaque freeByte : Nat → Byte

/-- The serial collaborator's answer to a poll that nothing is scripted for (R231, D36). -/
opaque freePoll : Nat → Option Byte

/-- The milliseconds that pass before a timer reading that nothing is scripted for (R232, D35). -/
opaque freeTick : Nat → Nat

/-- The reference values: capacity 100 (R9), the coil rule SOURCE (R11), P_EARLY_POLLS open (R10). -/
def reference : Params := { frameCap := 100, earlyPolls := earlyPolls, coilRule := .source }

end Config

end Sys2Proof
end

