-- ==== Sys2Proof/Syntax.lean ====
section
/-! DEFINITION. The operations of MBSM-CORE: one constructor per row of spec/opcode_table.json.
The table has three opcode spaces (spec/30_encoding.md R99, R100, R104). A request takes its operands from
the current Transaction (spec/41_request_encode.md), a reply from the frame buffer (spec/42_reply_decode.md),
so those rows carry at most the function byte; the host commands carry their arguments (R104). -/

namespace Sys2Proof

inductive Instr where
  -- request function bytes (R99)
  | reqReadCoilStatus
  | reqReadInputStatus
  | reqReadHoldingRegisters
  | reqReadInputRegisters
  | reqForceMultipleCoils
  | reqPresetMultipleRegisters
  -- reply function bytes (R100)
  | rplException (function : Byte)
  | rplReadCoilStatus
  | rplReadInputStatus
  | rplReadHoldingRegisters
  | rplReadInputRegisters
  | rplForceMultipleCoils
  | rplPresetMultipleRegisters
  | rplUnsupported (function : Byte)
  -- host commands (R104)
  | configure (baudRate responseTimeoutMs turnaroundDelayMs maxRetries : Word) (txnList : Nat) (count : Word)
  | construct (t : Nat) (slaveId functionCode : Byte) (address quantity : HWord) (rb rbLen : Nat)
  | run (t : Nat)
  | crc (bytes : List Byte)
deriving DecidableEq, Repr

/-- The opcode space a function byte or selector is read in: the same byte means a different thing in each. -/
inductive OpcodeSpace where
  /-- `t.functionCode` of the current Transaction (R99). -/
  | request
  /-- Byte 1 of a reply that passed the CRC check (R100). -/
  | reply
  /-- The selector of a call at the host port (R104). -/
  | host
deriving DecidableEq, Repr

def Instr.space : Instr → OpcodeSpace
  | .reqReadCoilStatus => .request
  | .reqReadInputStatus => .request
  | .reqReadHoldingRegisters => .request
  | .reqReadInputRegisters => .request
  | .reqForceMultipleCoils => .request
  | .reqPresetMultipleRegisters => .request
  | .rplException _ => .reply
  | .rplReadCoilStatus => .reply
  | .rplReadInputStatus => .reply
  | .rplReadHoldingRegisters => .reply
  | .rplReadInputRegisters => .reply
  | .rplForceMultipleCoils => .reply
  | .rplPresetMultipleRegisters => .reply
  | .rplUnsupported _ => .reply
  | .configure _ _ _ _ _ _ => .host
  | .construct _ _ _ _ _ _ _ => .host
  | .run _ => .host
  | .crc _ => .host

end Sys2Proof
end

