-- ==== Sys2Proof/WellFormed.lean ====
section
/-! DEFINITION. Which terms of `Instr` an encoding exists for: an exception byte has bit 7 set (R153), an
unsupported byte is one that R161 names, and a reference or a length fits its 32-bit operand at the host
port (notes/assumptions/6.md, 7.md). -/

namespace Sys2Proof

/-- R153: bit 7 set (match 1xxxxxxx, mask 0x80). -/
def isExceptionByte (f : Byte) : Bool := f &&& 0x80#8 != 0#8

/-- R3, R99: the six function codes of the block. -/
def isSupportedFunction (f : Byte) : Bool :=
  f == 0x01#8 || f == 0x02#8 || f == 0x03#8 || f == 0x04#8 || f == 0x0F#8 || f == 0x10#8

/-- A 32-bit operand at the host port. -/
def fitsOperand (n : Nat) : Bool := decide (n < 2 ^ 32)

def Instr.wf : Instr → Bool
  | .reqReadCoilStatus => true
  | .reqReadInputStatus => true
  | .reqReadHoldingRegisters => true
  | .reqReadInputRegisters => true
  | .reqForceMultipleCoils => true
  | .reqPresetMultipleRegisters => true
  | .rplException f => isExceptionByte f
  | .rplReadCoilStatus => true
  | .rplReadInputStatus => true
  | .rplReadHoldingRegisters => true
  | .rplReadInputRegisters => true
  | .rplForceMultipleCoils => true
  | .rplPresetMultipleRegisters => true
  | .rplUnsupported f => !isExceptionByte f && !isSupportedFunction f
  | .configure _ _ _ _ txnList _ => fitsOperand txnList
  | .construct t _ _ _ _ rb rbLen => fitsOperand t && fitsOperand rb && fitsOperand rbLen
  | .run t => fitsOperand t
  | .crc _ => true

end Sys2Proof
end

