-- ==== Sys2Proof/Decode.lean ====
section
/-! DEFINITION. Byte assembly (spec/00_scope.md R17, spec/30_encoding.md R98), the decoder of the three opcode
spaces (R99, R100, R104), total on any bytes, and the encoder. -/

namespace Sys2Proof

/-! ### Byte assembly -/

/-- `hi(v) = v[15:8]` (R17). -/
def hi (v : HWord) : Byte := (v >>> 8).setWidth 8

/-- `lo(v) = v[7:0]` (R17). -/
def lo (v : HWord) : Byte := v.setWidth 8

/-- `be16(a, b) = (a << 8) | b` (R17). -/
def be16 (a b : Byte) : HWord := (a.setWidth 16 <<< 8) ||| b.setWidth 16

/-- `le16(a, b) = a | (b << 8)` (R17). -/
def le16 (a b : Byte) : HWord := a.setWidth 16 ||| (b.setWidth 16 <<< 8)

/-- A 32-bit operand of a host call as four bytes, high byte first (notes/assumptions/6.md). -/
def be32 (n : Nat) : List Byte :=
  [BitVec.ofNat 8 (n / 2 ^ 24), BitVec.ofNat 8 (n / 2 ^ 16), BitVec.ofNat 8 (n / 2 ^ 8), BitVec.ofNat 8 n]

def byteAt (bs : List Byte) (k : Nat) : Byte := bs.getD k 0#8

def be16At (bs : List Byte) (k : Nat) : HWord := be16 (byteAt bs k) (byteAt bs (k + 1))

def be32At (bs : List Byte) (k : Nat) : Nat :=
  (byteAt bs k).toNat * 2 ^ 24 + (byteAt bs (k + 1)).toNat * 2 ^ 16 +
    (byteAt bs (k + 2)).toNat * 2 ^ 8 + (byteAt bs (k + 3)).toNat

def wordAt (bs : List Byte) (k : Nat) : Word := BitVec.ofNat 32 (be32At bs k)

/-! ### The decoder -/

/-- Why a byte sequence is no operation of the block. -/
inductive Reject where
  /-- No byte at all. -/
  | empty
  /-- More bytes than the one function byte. -/
  | trailingBytes
  /-- A request function byte outside the six of R99. -/
  | unsupportedRequest (f : Byte)
  /-- A selector R104 does not list. -/
  | unknownSelector (sel : Byte)
  /-- A call whose operands have not the length its selector takes. -/
  | badOperandLength (sel : Byte)
deriving DecidableEq, Repr

/-- R99. -/
def decodeRequestByte (f : Byte) : Except Reject Instr :=
  if f = 0x01#8 then .ok .reqReadCoilStatus
  else if f = 0x02#8 then .ok .reqReadInputStatus
  else if f = 0x03#8 then .ok .reqReadHoldingRegisters
  else if f = 0x04#8 then .ok .reqReadInputRegisters
  else if f = 0x0F#8 then .ok .reqForceMultipleCoils
  else if f = 0x10#8 then .ok .reqPresetMultipleRegisters
  else .error (.unsupportedRequest f)

/-- R100: the first matching row wins; every byte has exactly one class (R101). -/
def decodeReplyByte (f : Byte) : Instr :=
  if isExceptionByte f then .rplException f
  else if f = 0x01#8 then .rplReadCoilStatus
  else if f = 0x02#8 then .rplReadInputStatus
  else if f = 0x03#8 then .rplReadHoldingRegisters
  else if f = 0x04#8 then .rplReadInputRegisters
  else if f = 0x0F#8 then .rplForceMultipleCoils
  else if f = 0x10#8 then .rplPresetMultipleRegisters
  else .rplUnsupported f

/-- R104: a selector and its operands in the order R104 lists them; the layout is notes/assumptions/6.md. -/
def decodeHostCall (sel : Byte) (ops : List Byte) : Except Reject Instr :=
  if sel = 0x00#8 then
    if ops.length = 24 then
      .ok (.configure (wordAt ops 0) (wordAt ops 4) (wordAt ops 8) (wordAt ops 12) (be32At ops 16) (wordAt ops 20))
    else .error (.badOperandLength sel)
  else if sel = 0x01#8 then
    if ops.length = 18 then
      .ok (.construct (be32At ops 0) (byteAt ops 4) (byteAt ops 5) (be16At ops 6) (be16At ops 8)
        (be32At ops 10) (be32At ops 14))
    else .error (.badOperandLength sel)
  else if sel = 0x02#8 then
    if ops.length = 4 then .ok (.run (be32At ops 0)) else .error (.badOperandLength sel)
  else if sel = 0x03#8 then .ok (.crc ops)
  else .error (.unknownSelector sel)

/-- The decoder: the bytes of one operation, read in the opcode space they stand in. -/
def decode : OpcodeSpace → List Byte → Except Reject Instr
  | _, [] => .error .empty
  | .request, [f] => decodeRequestByte f
  | .reply, [f] => .ok (decodeReplyByte f)
  | .request, _ :: _ :: _ => .error .trailingBytes
  | .reply, _ :: _ :: _ => .error .trailingBytes
  | .host, sel :: ops => decodeHostCall sel ops

/-! ### The encoder -/

/-- The bytes of an operation in its own opcode space (R99, R100, R104). -/
def encode : Instr → List Byte
  | .reqReadCoilStatus => [0x01#8]
  | .reqReadInputStatus => [0x02#8]
  | .reqReadHoldingRegisters => [0x03#8]
  | .reqReadInputRegisters => [0x04#8]
  | .reqForceMultipleCoils => [0x0F#8]
  | .reqPresetMultipleRegisters => [0x10#8]
  | .rplException f => [f]
  | .rplReadCoilStatus => [0x01#8]
  | .rplReadInputStatus => [0x02#8]
  | .rplReadHoldingRegisters => [0x03#8]
  | .rplReadInputRegisters => [0x04#8]
  | .rplForceMultipleCoils => [0x0F#8]
  | .rplPresetMultipleRegisters => [0x10#8]
  | .rplUnsupported f => [f]
  | .configure baud timeout delay retries list count =>
    0x00#8 :: (be32 baud.toNat ++ be32 timeout.toNat ++ be32 delay.toNat ++ be32 retries.toNat ++ be32 list ++
      be32 count.toNat)
  | .construct t id fc a q rb len =>
    0x01#8 :: (be32 t ++ [id, fc, hi a, lo a, hi q, lo q] ++ be32 rb ++ be32 len)
  | .run t => 0x02#8 :: be32 t
  | .crc bytes => 0x03#8 :: bytes

/-! ### The words of the opcode table -/

/-- Bytes of a table word: bits 7..0 are the first byte, bits 15..8 the second; bits from `nbits` up are 0. -/
def tableBytes (nbits w n : Nat) : List Byte :=
  (List.range n).map fun k => BitVec.ofNat 8 ((w % 2 ^ nbits) / 2 ^ (8 * k))

/-- The first byte of a table word: a function byte or a selector. -/
def tableOpcode (nbits w : Nat) : Byte := BitVec.ofNat 8 (w % 2 ^ nbits)

/-- The three opcode spaces share bytes and a table word does not say which it is read in. One byte is read as the
engine meets bytes: a host selector first, then a request function byte, then a reply function byte; a longer
word is a frame's, so the host port is passed over (notes/assumptions/16.md). -/
def tableSpace (nbits : Nat) (f : Byte) : OpcodeSpace :=
  if nbits ≤ 8 ∧ f.toNat ≤ 3 then .host else if isSupportedFunction f then .request else .reply

/-- How many bytes a call with this selector takes when its operands are zeros. -/
def tableCallLength (nbits : Nat) (sel : Byte) : Nat :=
  if sel = 0x00#8 then 25 else if sel = 0x01#8 then 19 else if sel = 0x02#8 then 5 else max 1 (nbits / 8)

/-- The bytes a table word stands for in its opcode space. -/
def tableCall (nbits w : Nat) : List Byte :=
  match tableSpace nbits (tableOpcode nbits w) with
  | .host => tableBytes nbits w (tableCallLength nbits (tableOpcode nbits w))
  | .request => [tableOpcode nbits w]
  | .reply => [tableOpcode nbits w]

def decodeTableWord (nbits w : Nat) : Option Instr :=
  match decode (tableSpace nbits (tableOpcode nbits w)) (tableCall nbits w) with
  | .ok i => some i
  | .error _ => none

end Sys2Proof
end

