-- ==== Sys2Proof/Machine/State.lean ====
section
/-! DEFINITION. Everything the spec gives the machine, as plain data (spec/10_state.md R20, R30, R40; spec/20_memory.md
R60, R63; spec/45_host_commands.md R230 to R232), and the state after reset (spec/70_reset_and_hazards.md R280). -/

namespace Sys2Proof.Machine

/-! ### Reasons to stop -/

/-- The model faults of R259. A rule raises one by setting `E.fault` (R260); `step` answers with it from then on. Each
is safe: the model stops where the source's behaviour is undefined or not described (R261). -/
inductive Fault where
  /-- A request longer than P_FRAME_CAP (R130). Raised by the request encoders; safe. -/
  | encodeOverflow
  /-- A register-buffer index at or above t.RBLen (R64). Raised by the encoders of 15 and 16 and the decoders of
  1 to 4; safe. -/
  | bufferOutOfBounds
  /-- A decoder read at or above P_FRAME_CAP (R62). Raised by the decoders of 1 to 4; safe. -/
  | readBeyondFrame
  /-- CONSTRUCT with a function code outside the six (R234); safe. -/
  | unsupportedFunctionCode
  /-- RUN before any CONFIGURE (R200); safe. -/
  | notConfigured
  /-- RUN on a Transaction never constructed (R200); safe. -/
  | notConstructed
  /-- CONFIGURE with baudRate = 0 (R233); safe. -/
  | badBaudRate
deriving DecidableEq, Repr

/-- Moves the machine does not have. -/
inductive Refusal where
  /-- An instruction with no meaning in the model, by its mnemonic; raised by `exec`'s arms only; safe. -/
  | notModelled (mnemonic : String)
  /-- CONFIGURE, CONSTRUCT or RUN while a RUN is in progress: "the host has no such move" (93 I-HOST, R236). Raised by
  those three meanings; unsafe for a host that breaks the invariant (notes/assumptions/17.md). -/
  | hostBusy
  /-- A request or a reply operation with no Transaction being driven; raised by those meanings; safe. -/
  | noAttempt
  /-- Bytes that are no operation of the block, at the host port or as a Transaction's function code; raised by
  `step`; safe. -/
  | undecoded (why : Reject)
deriving DecidableEq, Repr

/-! ### Engine state -/

/-- `E.phase` (R22). -/
inductive Phase where
  | idle
  | awaitingReply
  | turnaroundDelay
  | done
deriving DecidableEq, Repr

/-- The eight engine errors (R250). -/
inductive ErrorKind where
  | receiveOverflow
  | receiveTooShort
  | unexpectedSlaveId
  | checksumMismatch
  | exceptionResponse
  | unsupportedFunctionInReply
  | replyLengthMismatch
  | echoMismatch
deriving DecidableEq, Repr

/-- How an attempt resolved (R27). -/
inductive Resolution where
  | success
  | fail (kind : ErrorKind)
deriving DecidableEq, Repr

/-- The engine state `E` (R20). -/
structure Engine where
  phase : Phase
  cur : Option Nat
  /-- The frame buffer, in canonical form (`Cells.wf`): an unlisted byte reads as 0x00 (notes/assumptions/8.md). -/
  fb : List Host.Cell
  txLen : Nat
  n : Nat
  ovf : Bool
  polls : Nat
  t0 : Word
  tt : Word
  outcome : Option Resolution
  dispatchCount : Word
  configured : Bool
  fault : Option Fault
deriving DecidableEq, Repr

/-- `C.framing` (R30): hardwired, 8 data bits, even parity, 1 stop bit. -/
inductive Framing where
  | eightEvenOne
deriving DecidableEq, Repr

/-- The configuration registers `C` (R30). -/
structure Configuration where
  baudRate : Word
  framing : Framing
  responseTimeoutMs : Word
  turnaroundDelayMs : Word
  maxRetries : Word
  txnList : Nat
  txnCount : Word
  t1_5 : Word
  t3_5 : Word
deriving DecidableEq, Repr

/-- A Transaction record `t` (R40). -/
structure Txn where
  slaveId : Byte
  functionCode : Byte
  startAddress : HWord
  quantity : HWord
  rb : Nat
  rbLen : Nat
  requestsIssued : Word
  successfulRequests : Word
  failedRequests : Word
  exceptionErrors : Word
  retries : Word
  receivedCount : HWord
  connectionActive : Bool
  constructed : Bool
deriving DecidableEq, Repr

/-- A Transaction before CONSTRUCT (R281 gives it no state, R48 has its mark clear): notes/assumptions/10.md. -/
def Txn.blank : Txn :=
  { slaveId := 0#8, functionCode := 0#8, startAddress := 0#16, quantity := 0#16, rb := 0, rbLen := 0,
    requestsIssued := 0#32, successfulRequests := 0#32, failedRequests := 0#32, exceptionErrors := 0#32,
    retries := 0#32, receivedCount := 0#16, connectionActive := false, constructed := false }

/-! ### Ports -/

/-- What the caller has pending: a call (its selector and operands, R104), or its own store to a register buffer,
which it may make between calls (R47, R236). -/
inductive HostInput where
  | call (record : List Byte)
  | store (entry : Nat) (value : HWord)
deriving DecidableEq, Repr

/-- What the engine hands to the serial collaborator (R231, R233). -/
inductive SerialOut where
  | opened (baudRate : Word) (framing : Framing)
  | sent (bytes : List Byte)
deriving DecidableEq, Repr

/-- The three ports (R230 to R232). -/
structure Ports where
  /-- Pending inputs of the caller, oldest first. -/
  hostIn : List HostInput
  /-- What the last call handed back: a value for CRC, nothing for the others (R236). -/
  hostOut : Option HWord
  /-- The collaborator's answers to the coming polls, oldest first; when none is listed the answer is free. -/
  serialIn : List (Option Byte)
  /-- Everything handed to the collaborator, oldest first. -/
  serialOut : List SerialOut
  /-- The milliseconds that pass before each coming timer reading, oldest first; when none is listed it is free. -/
  ticks : List Nat
  /-- The time of the last reading, in milliseconds, unwrapped. -/
  time : Nat
  /-- The model's own: how many free values have been used. -/
  freeUsed : Nat
deriving DecidableEq, Repr

/-! ### The whole state -/

structure State where
  /-- The model's own: the implementation parameters (R9 to R11), which no step changes. -/
  par : Params
  e : Engine
  c : Configuration
  /-- The Transaction records by reference, in canonical form; an unlisted one is `Txn.blank`. -/
  txns : List (Nat × Txn)
  /-- The caller's 16-bit entries by address, in canonical form; an unlisted one reads as 0x0000. -/
  regs : List (Nat × HWord)
  ports : Ports
  /-- The model's own: inside AWAITING_REPLY, the receive loop has ended and the exit checks come next. -/
  rxDone : Bool
deriving DecidableEq, Repr

/-- The machine right after reset (R280); where R280 says "unspecified", the values of notes/assumptions/8.md to 11.md. -/
def State.reset : State :=
  { par := Config.reference
    e := { phase := .idle, cur := none, fb := [], txLen := 0, n := 0, ovf := false, polls := 0, t0 := 0#32, tt := 0#32,
           outcome := none, dispatchCount := 0#32, configured := false, fault := none }
    c := { baudRate := 0#32, framing := .eightEvenOne, responseTimeoutMs := 0#32, turnaroundDelayMs := 0#32,
           maxRetries := 0#32, txnList := 0, txnCount := 0#32, t1_5 := 0#32, t3_5 := 0#32 }
    txns := []
    regs := []
    ports := { hostIn := [], hostOut := none, serialIn := [], serialOut := [], ticks := [], time := 0, freeUsed := 0 }
    rxDone := false }

end Sys2Proof.Machine
end

