-- ==== Sys2Proof/Machine/Memory.lean ====
section
/-! DEFINITION. Sparse memory in one canonical form: a list of (key, value) pairs, keys strictly rising, no entry equal
to what an unlisted key reads as. The frame buffer, the register buffers and the Transaction records are held so. -/

namespace Sys2Proof.Machine

variable {α : Type}

/-- The value at a key; `d` is what an unlisted key reads as. -/
def Cells.get (d : α) (k : Nat) : List (Nat × α) → α
  | [] => d
  | (j, v) :: rest => if k = j then v else if k < j then d else Cells.get d k rest

/-- Store a value; storing `d` removes the entry. (Removing skips every leading key up to `k`: in canonical form there
is none but `k`'s own.) -/
def Cells.put [DecidableEq α] (d : α) (k : Nat) (v : α) : List (Nat × α) → List (Nat × α)
  | [] => if v = d then [] else [(k, v)]
  | (j, w) :: rest =>
    if k < j then (if v = d then (j, w) :: rest else (k, v) :: (j, w) :: rest)
    else if k = j then (if v = d then rest.dropWhile (fun c => decide (c.1 ≤ k)) else (k, v) :: rest)
    else (j, w) :: Cells.put d k v rest

/-- Every key of the list is above `k`, by its first entry. -/
def Cells.above (k : Nat) : List (Nat × α) → Bool
  | [] => true
  | (j, _) :: _ => decide (k < j)

/-- The canonical form. -/
def Cells.wf [DecidableEq α] (d : α) : List (Nat × α) → Bool
  | [] => true
  | (k, v) :: rest => decide (v ≠ d) && Cells.above k rest && Cells.wf d rest

/-- What an unlisted byte of the frame buffer reads as: R280 leaves it unspecified (notes/assumptions/8.md). -/
def unlistedByte : Byte := 0x00#8

/-- What an unlisted register-buffer entry reads as (notes/assumptions/9.md). -/
def unlistedEntry : HWord := 0x0000#16

/-- The canonical form of the machine's three sparse stores. -/
def Memory.wf (s : State) : Bool :=
  Cells.wf unlistedByte s.e.fb && Cells.wf unlistedEntry s.regs && Cells.wf Txn.blank s.txns

end Sys2Proof.Machine
end

