-- ==== Sys2Proof/Machine/Operands.lean ====
section
/-! DEFINITION. Operand computations: the CRC-16 engine's function (spec/40_crc.md R120), the coil counts (spec/41_request_encode.md
R131), the data bytes of a request's payload (R92, R93), and elapsed time (spec/00_scope.md R18). -/

namespace Sys2Proof.Machine

/-- One of the eight shifts of R120. -/
def crcBit (r : HWord) : HWord := if r.getLsbD 0 then (r >>> 1) ^^^ 0xA001#16 else r >>> 1

/-- R120's work on one input byte. -/
def crcByte (r : HWord) (b : Byte) : HWord :=
  crcBit (crcBit (crcBit (crcBit (crcBit (crcBit (crcBit (crcBit (r ^^^ b.setWidth 16))))))))

/-- `Crc16(s)` (R120). -/
def crc16 (s : List Byte) : HWord := s.foldl crcByte 0xFFFF#16

/-- `BC(q)`, the coil byte count (R131). -/
def coilBytes (rule : CoilRule) (q : Nat) : Nat :=
  match rule with
  | .source => 2 * (q / 16) + (if q % 16 ≠ 0 then 1 else 0)
  | .modbus => (q + 7) / 8

/-- `RC(q) = ceil(BC(q) / 2)`, the coil register count (R131). -/
def coilEntries (rule : CoilRule) (q : Nat) : Nat := (coilBytes rule q + 1) / 2

/-- Coil data byte k of a payload: low byte of the entry first, high byte second (R67, R93). -/
def coilDataByte (entry : Nat → HWord) (k : Nat) : Byte :=
  if k % 2 = 0 then lo (entry (k / 2)) else hi (entry (k / 2))

/-- The coil data of a function 15 request (R137). -/
def coilData (entry : Nat → HWord) (bc : Nat) : List Byte := (List.range bc).map (coilDataByte entry)

/-- The register data of a function 16 request, each entry high byte first (R138). -/
def registerData (entry : Nat → HWord) (q : Nat) : List Byte :=
  (List.range q).flatMap fun i => [hi (entry i), lo (entry i)]

/-- `elapsed(t1, t0) = (t1 - t0) mod 2^32` (R18). -/
def elapsed (t1 t0 : Word) : Nat := (t1 - t0).toNat

end Sys2Proof.Machine
end

