-- ==== Sys2Proof/Machine/Flags.lean ====
section
/-! DEFINITION. The two status bits (spec/10_state.md R45: t.connectionActive and E.ovf) and the counters the handlers
update (spec/44_transaction_engine.md R201, R204, R205, R207), as functions of what they are computed from. The block
has no condition codes. -/

namespace Sys2Proof.Machine

/-- `E.ovf` after a poll: set when a byte arrives while the buffer is full (R25, R182). -/
def ovfAfterPoll (ovf : Bool) (n cap : Nat) (answer : Option Byte) : Bool :=
  match answer with
  | some _ => if n < cap then ovf else true
  | none => ovf

/-- The error codes 1..8 of R250. -/
def ErrorKind.code : ErrorKind → Nat
  | .receiveOverflow => 1
  | .receiveTooShort => 2
  | .unexpectedSlaveId => 3
  | .checksumMismatch => 4
  | .exceptionResponse => 5
  | .unsupportedFunctionInReply => 6
  | .replyLengthMismatch => 7
  | .echoMismatch => 8

/-- R201: a request has been sent. -/
def Txn.countRequest (t : Txn) : Txn := { t with requestsIssued := t.requestsIssued + 1#32 }

/-- R204: the success handler's work on the Transaction. -/
def Txn.countSuccess (t : Txn) : Txn := { t with successfulRequests := t.successfulRequests + 1#32, retries := 0#32 }

/-- R205: the failure handler's counters. -/
def Txn.countFailure (kind : ErrorKind) (t : Txn) : Txn :=
  { t with
    retries := t.retries + 1#32
    failedRequests := t.failedRequests + 1#32
    exceptionErrors := if kind = .exceptionResponse then t.exceptionErrors + 1#32 else t.exceptionErrors }

/-- R207: the retry ceiling is reached. -/
def Txn.atCeiling (maxRetries : Word) (t : Txn) : Bool := decide (maxRetries.toNat ≤ t.retries.toNat)

/-- R207: the retry ceiling, which clears `connectionActive`. -/
def Txn.applyCeiling (maxRetries : Word) (t : Txn) : Txn :=
  if t.atCeiling maxRetries then { t with connectionActive := false, retries := 0#32 } else t

/-- R157, R155, R159: a reply decoded. -/
def Txn.recordReply (t : Txn) : Txn := { t with receivedCount := t.quantity }

end Sys2Proof.Machine
end

