-- ==== Sys2Proof/Machine/Ops.lean ====
section
/-! DEFINITION. The named operations over the stores, the ports and the Transactions, and the shared parts of an
attempt: raising a model fault, the failure path (the block's trap entry), the success handler, and Done (the
return). -/

namespace Sys2Proof.Machine

/-- What a meaning answers. -/
abbrev Answer := Host.Outcome State Fault Refusal

/-! ### The stores -/

/-- `FB[i]` (R18). -/
def State.fbByte (s : State) (i : Nat) : Byte := Cells.get unlistedByte i s.e.fb

/-- `FB[i] <- b` (R18). -/
def State.setFbByte (i : Nat) (b : Byte) (s : State) : State :=
  { s with e := { s.e with fb := Cells.put unlistedByte i b s.e.fb } }

/-- Write a byte sequence from index `i` on. -/
def State.writeFb (i : Nat) : List Byte → State → State
  | [], s => s
  | b :: bs, s => State.writeFb (i + 1) bs (s.setFbByte i b)

/-- `FB[i..i+len)` (R18). -/
def State.fbSlice (s : State) (i len : Nat) : List Byte := (List.range len).map fun k => s.fbByte (i + k)

/-- The 16-bit entry at an address of the caller's memory. -/
def State.entryAt (s : State) (a : Nat) : HWord := Cells.get unlistedEntry a s.regs

def State.setEntryAt (a : Nat) (v : HWord) (s : State) : State := { s with regs := Cells.put unlistedEntry a v s.regs }

/-- The Transaction record at a reference. -/
def State.txn (s : State) (r : Nat) : Txn := Cells.get Txn.blank r s.txns

def State.setTxn (r : Nat) (t : Txn) (s : State) : State := { s with txns := Cells.put Txn.blank r t s.txns }

/-- `RB(t)[i]` (R63): entry i stands at `t.RB + i` of the caller's memory (notes/assumptions/7.md). -/
def State.rbEntry (s : State) (t : Txn) (i : Nat) : HWord := s.entryAt (t.rb + i)

/-! ### The ports -/

/-- A free value has been used. -/
def Ports.useFree (p : Ports) : Ports := { p with freeUsed := p.freeUsed + 1 }

/-- Time passes before a timer reading, as the script says or by a free amount (R232). -/
def Ports.passTime (p : Ports) : Ports :=
  match p.ticks with
  | d :: rest => { p with ticks := rest, time := p.time + d }
  | [] => { p.useFree with time := p.time + Config.freeTick p.freeUsed }

/-- What the collaborator answers to a poll (R231). -/
def Ports.pollAnswer (p : Ports) : Option Byte :=
  match p.serialIn with
  | a :: _ => a
  | [] => Config.freePoll p.freeUsed

/-- The answer to a poll is consumed (R70). -/
def Ports.takePoll (p : Ports) : Ports :=
  match p.serialIn with
  | _ :: rest => { p with serialIn := rest }
  | [] => p.useFree

/-- `Now()` (R232): the reading is the `State.clock` of the state this leaves. -/
def State.readTimer (s : State) : State := { s with ports := s.ports.passTime }

/-- The last timer reading: a 32-bit count of milliseconds (R13). -/
def State.clock (s : State) : Word := BitVec.ofNat 32 s.ports.time

/-- What `SerialPoll()` answers (R231). -/
def State.pollAnswer (s : State) : Option Byte := s.ports.pollAnswer

/-- The state after a poll: the answer is consumed (R70). -/
def State.polled (s : State) : State := { s with ports := s.ports.takePoll }

/-- The state after a draw. -/
def State.drawn (s : State) : State := { s with ports := s.ports.useFree }

/-- Hand something to the serial collaborator (R231); it always completes (D28). -/
def State.serialWrite (o : SerialOut) (s : State) : State :=
  { s with ports := { s.ports with serialOut := s.ports.serialOut ++ [o] } }

/-- `SerialSend(s)` (R231). -/
def State.serialSend (bytes : List Byte) (s : State) : State := s.serialWrite (.sent bytes)

/-! ### The reply read primitive -/

/-- `RxByte(i)` (R62): the byte received, a draw where none was received, nothing at or above the capacity. -/
def rxByte (i : Nat) (s : State) : Except (Fault × State) (Byte × State) :=
  if i < s.e.n then .ok (s.fbByte i, s)
  else if i < s.par.frameCap then .ok (Config.freeByte s.ports.freeUsed, s.drawn)
  else .error (.readBeyondFrame, s)

/-! ### Checksum of the frame buffer -/

/-- `AppendCrc(L)` (R122). -/
def appendCrc (len : Nat) (s : State) : State :=
  s.writeFb len [lo (crc16 (s.fbSlice 0 len)), hi (crc16 (s.fbSlice 0 len))]

/-- `CrcOk(m)` (R123). -/
def crcOk (m : Nat) (s : State) : Bool :=
  le16 (s.fbByte (m - 2)) (s.fbByte (m - 1)) == crc16 (s.fbSlice 0 (m - 2))

/-! ### Model faults -/

/-- `raise Fault(f)` (R260): `E.fault <- f`, and nothing else. -/
def State.raised (f : Fault) (s : State) : State := { s with e := { s.e with fault := some f } }

/-! ### The end of an attempt -/

/-- Change a Transaction in place. -/
def State.modifyTxn (r : Nat) (g : Txn → Txn) (s : State) : State := s.setTxn r (g (s.txn r))

/-- `StartTurnaround()` (R206). -/
def startTurnaround (s : State) : State :=
  let s := s.readTimer
  { s with e := { s.e with tt := s.clock, phase := .turnaroundDelay }, rxDone := false }

/-- `SuccessHandler(t)` (R204). -/
def successHandler (r : Nat) (s : State) : State := startTurnaround (s.modifyTxn r Txn.countSuccess)

/-- `FailureHandler(t, kind)` (R205), with the ceiling (R207). -/
def failureHandler (r : Nat) (kind : ErrorKind) (s : State) : State :=
  startTurnaround (s.modifyTxn r fun t => (t.countFailure kind).applyCeiling s.c.maxRetries)

/-- `fail(kind)`: the one failure path (R251, R256). Nothing is saved and there is no vector. -/
def takeFailure (r : Nat) (kind : ErrorKind) (s : State) : State :=
  failureHandler r kind { s with e := { s.e with outcome := some (.fail kind) } }

/-- A reply decoded: `t.receivedCount <- q; E.outcome <- SUCCESS`, then the success handler (R155, R203). -/
def acceptReply (r : Nat) (s : State) : State :=
  successHandler r
    { s.modifyTxn r Txn.recordReply with
      e := { (s.modifyTxn r Txn.recordReply).e with outcome := some .success } }

/-- Phase DONE (R208): the return from RUN, the counterpart of a return from a trap (R257). -/
def finishRun (s : State) : State :=
  { s with e := { s.e with dispatchCount := s.e.dispatchCount + 1#32, phase := .idle, cur := none } }

/-- The start of the receive phase (R180), after the send. -/
def beginReceive (s : State) : State :=
  let s := s.readTimer
  { s with
    e := { s.e with phase := .awaitingReply, t0 := s.clock, n := 0, ovf := false, polls := 0, outcome := none }
    rxDone := false }

/-! ### Who may run what -/

/-- An operation of an attempt, given the Transaction being driven (R23). -/
def withAttempt (s : State) (k : Nat → Answer) : Answer :=
  match s.e.cur with
  | some r => k r
  | none => .refused .noAttempt

/-- A host operation that must not come while a RUN is in progress (R236). -/
def whenNoRun (s : State) (k : Answer) : Answer :=
  match s.e.cur with
  | some _ => .refused .hostBusy
  | none => k

end Sys2Proof.Machine
end

