-- ==== Sys2Proof/Machine/HostCommands.lean ====
section
/-! DEFINITION. The host commands (spec/45_host_commands.md R233 to R235, spec/40_crc.md R121). -/

namespace Sys2Proof.Machine

/-- The configuration registers CONFIGURE leaves (R233): T1.5 and T3.5 by floor division (R32). -/
def configured (baudRate timeout delay maxRetries : Word) (txnList : Nat) (count : Word) : Configuration :=
  { baudRate := baudRate
    framing := .eightEvenOne
    responseTimeoutMs := timeout
    turnaroundDelayMs := delay
    maxRetries := maxRetries
    txnList := txnList
    txnCount := count
    t1_5 := BitVec.ofNat 32 (15000000 / baudRate.toNat)
    t3_5 := BitVec.ofNat 32 (35000000 / baudRate.toNat) }

/-- R233: CONFIGURE. -/
def execConfigure (baudRate timeout delay maxRetries : Word) (txnList : Nat) (count : Word) (s : State) : Answer :=
  whenNoRun s <|
    if baudRate = 0#32 then .next (s.raised .badBaudRate)
    else
      .next
        { s.serialWrite (.opened baudRate .eightEvenOne) with
          c := configured baudRate timeout delay maxRetries txnList count
          e := { s.e with configured := true } }

/-- The record CONSTRUCT leaves (R234). -/
def constructedTxn (slaveId functionCode : Byte) (address quantity : HWord) (rb rbLen : Nat) : Txn :=
  { slaveId := slaveId, functionCode := functionCode, startAddress := address, quantity := quantity, rb := rb,
    rbLen := rbLen, requestsIssued := 0#32, successfulRequests := 0#32, failedRequests := 0#32,
    exceptionErrors := 0#32, retries := 0#32, receivedCount := 0#16, connectionActive := true, constructed := true }

/-- R234: CONSTRUCT; the entries of the register buffer are not written. -/
def execConstruct (t : Nat) (slaveId functionCode : Byte) (address quantity : HWord) (rb rbLen : Nat) (s : State) :
    Answer :=
  whenNoRun s <|
    if isSupportedFunction functionCode then
      .next (s.setTxn t (constructedTxn slaveId functionCode address quantity rb rbLen))
    else .next (s.raised .unsupportedFunctionCode)

/-- R235: RUN starts an attempt (R200); the steps after this one carry it to Done (notes/assumptions/1.md). -/
def execRun (t : Nat) (s : State) : Answer :=
  whenNoRun s <|
    if s.e.configured = false then .next (s.raised .notConfigured)
    else if (s.txn t).constructed = false then .next (s.raised .notConstructed)
    else .next { s with e := { s.e with cur := some t, phase := .idle, outcome := none } }

/-- R121: CRC, a pure function; its value is handed back at the host port (R236). -/
def execCrc (bytes : List Byte) (s : State) : Answer :=
  .next { s with ports := { s.ports with hostOut := some (crc16 bytes) } }

end Sys2Proof.Machine
end

