-- ==== Sys2Proof/Machine/Replies.lean ====
section
/-! DEFINITION. The reply operations (spec/42_reply_decode.md R153 to R161), run on a reply that passed the exit checks and the CRC
check, with the handler that follows (spec/44_transaction_engine.md R203). -/

namespace Sys2Proof.Machine

/-- Raise what a failed read of the frame raises, leaving what was written before it (R162, R262). -/
def raiseFrom (e : Fault × State) : Answer := .next (e.2.raised e.1)

/-- The loop of `DecodeCoil` (R155): `m` entries to go, entry `i` next; data byte 2i is its low byte, 2i+1 its high byte,
and the high byte of a lone last byte is 0x00 (D18). -/
def coilLoop (rb bc : Nat) : Nat → Nat → State → Except (Fault × State) State
  | 0, _, s => .ok s
  | m + 1, i, s =>
    match rxByte (3 + 2 * i) s with
    | .error e => .error e
    | .ok (low, s) =>
      if 2 * i + 1 < bc then
        match rxByte (4 + 2 * i) s with
        | .error e => .error e
        | .ok (high, s) => coilLoop rb bc m (i + 1) (s.setEntryAt (rb + i) (le16 low high))
      else coilLoop rb bc m (i + 1) (s.setEntryAt (rb + i) (le16 low 0x00#8))

/-- The loop of `DecodeReg` (R157): `m` registers to go, register `i` next. -/
def registerLoop (rb : Nat) : Nat → Nat → State → Except (Fault × State) State
  | 0, _, s => .ok s
  | m + 1, i, s =>
    match rxByte (3 + 2 * i) s with
    | .error e => .error e
    | .ok (high, s) =>
      match rxByte (4 + 2 * i) s with
      | .error e => .error e
      | .ok (low, s) => registerLoop rb m (i + 1) (s.setEntryAt (rb + i) (be16 high low))

/-- The shared shape of R155 and R157: the byte count against the expected one at full width, the register-buffer
bound before any write, the loop, the success. -/
def decodeData (r expected entries : Nat) (loop : State → Except (Fault × State) State) (s : State) : Answer :=
  match rxByte 2 s with
  | .error e => raiseFrom e
  | .ok (count, s) =>
    if count.toNat ≠ expected then .next (takeFailure r .replyLengthMismatch s)
    else if (s.txn r).rbLen < entries then .next (s.raised .bufferOutOfBounds)
    else
      match loop s with
      | .error e => raiseFrom e
      | .ok s => .next (acceptReply r s)

/-- `DecodeCoil(t)` (R155). -/
def decodeCoil (s : State) : Answer :=
  withAttempt s fun r =>
    let t := s.txn r
    let bc := coilBytes s.par.coilRule t.quantity.toNat
    let rc := coilEntries s.par.coilRule t.quantity.toNat
    decodeData r bc rc (coilLoop t.rb bc rc 0) s

/-- `DecodeReg(t)` (R157). -/
def decodeRegisters (s : State) : Answer :=
  withAttempt s fun r =>
    let t := s.txn r
    let q := t.quantity.toNat
    decodeData r (2 * q) q (registerLoop t.rb q 0) s

/-- Two bytes of the reply, high byte first, in the order R159 reads them. -/
def rxBe16 (i : Nat) (s : State) : Except (Fault × State) (HWord × State) :=
  match rxByte i s with
  | .error e => .error e
  | .ok (high, s) =>
    match rxByte (i + 1) s with
    | .error e => .error e
    | .ok (low, s) => .ok (be16 high low, s)

/-- `DecodeEcho(t)` (R159): `t.RB` is not written. -/
def decodeEcho (s : State) : Answer :=
  withAttempt s fun r =>
    match rxBe16 2 s with
    | .error e => raiseFrom e
    | .ok (address, s) =>
      match rxBe16 4 s with
      | .error e => raiseFrom e
      | .ok (quantity, s) =>
        if address ≠ (s.txn r).startAddress ∨ quantity ≠ (s.txn r).quantity then
          .next (takeFailure r .echoMismatch s)
        else .next (acceptReply r s)

/-- R153: an exception reply; the exception code is not read (D32). -/
def execRplException (_function : Byte) (s : State) : Answer :=
  withAttempt s fun r => .next (takeFailure r .exceptionResponse s)

/-- R155: coil reply, function byte 0x01. -/
def execRplReadCoilStatus (s : State) : Answer := decodeCoil s

/-- R156: coil reply, function byte 0x02. -/
def execRplReadInputStatus (s : State) : Answer := decodeCoil s

/-- R157: register reply, function byte 0x03. -/
def execRplReadHoldingRegisters (s : State) : Answer := decodeRegisters s

/-- R158: register reply, function byte 0x04. -/
def execRplReadInputRegisters (s : State) : Answer := decodeRegisters s

/-- R159: echo reply, function byte 0x0F. -/
def execRplForceMultipleCoils (s : State) : Answer := decodeEcho s

/-- R160: echo reply, function byte 0x10. -/
def execRplPresetMultipleRegisters (s : State) : Answer := decodeEcho s

/-- R161: a function byte with bit 7 clear that no other class has. -/
def execRplUnsupported (_function : Byte) (s : State) : Answer :=
  withAttempt s fun r => .next (takeFailure r .unsupportedFunctionInReply s)

end Sys2Proof.Machine
end

