-- ==== Sys2Proof/Machine/Requests.lean ====
section
/-! DEFINITION. The request operations (spec/41_request_encode.md R130 to R138) with the rest of phase IDLE (spec/44_transaction_engine.md
R201, R202): encode, send, count, then the receive phase or, for a broadcast, the success handler. -/

namespace Sys2Proof.Machine

/-- The six bytes of `Header(t)` (R130); the function byte is the operation's own (notes/assumptions/22.md). -/
def headerBytes (f : Byte) (t : Txn) : List Byte :=
  [t.slaveId, f, hi t.startAddress, lo t.startAddress, hi t.quantity, lo t.quantity]

/-- Write a frame's body from index 0, append its CRC, set `E.txLen` (R130). -/
def encodeFrame (body : List Byte) (s : State) : State :=
  let s := appendCrc body.length (s.writeFb 0 body)
  { s with e := { s.e with txLen := body.length + 2 } }

/-- The end of phase IDLE (R201): a broadcast goes straight to the success handler (R202). -/
def afterSend (r : Nat) (s : State) : State :=
  if (s.txn r).slaveId = 0#8 then successHandler r s else beginReceive s

/-- `SerialSend(E.FB[0..E.txLen))` and `t.requestsIssued + 1` (R201). -/
def sendRequest (r : Nat) (s : State) : State :=
  (s.serialSend (s.fbSlice 0 s.e.txLen)).modifyTxn r Txn.countRequest

/-- Phase IDLE with its encoder: both checks come before any write (R130). `need` is how many register-buffer entries
the encoder reads. -/
def runRequest (r : Nat) (body : List Byte) (len need : Nat) (s : State) : Answer :=
  if s.par.frameCap < len then .next (s.raised .encodeOverflow)
  else if (s.txn r).rbLen < need then .next (s.raised .bufferOutOfBounds)
  else .next (afterSend r (sendRequest r (encodeFrame body s)))

/-- Format RQ-READ (R91): always 8 bytes, no register-buffer access (R136). -/
def readRequest (f : Byte) (s : State) : Answer :=
  withAttempt s fun r => runRequest r (headerBytes f (s.txn r)) 8 0 s

/-- The body of a function 15 frame (R137). -/
def coilRequestBody (f : Byte) (rule : CoilRule) (t : Txn) (entry : Nat → HWord) : List Byte :=
  headerBytes f t ++ BitVec.ofNat 8 (coilBytes rule t.quantity.toNat) ::
    coilData entry (coilBytes rule t.quantity.toNat)

/-- The body of a function 16 frame (R138). -/
def registerRequestBody (f : Byte) (t : Txn) (entry : Nat → HWord) : List Byte :=
  headerBytes f t ++ BitVec.ofNat 8 (2 * t.quantity.toNat) :: registerData entry t.quantity.toNat

/-- R132: request ReadCoilStatus (function 1). -/
def execReqReadCoilStatus (s : State) : Answer := readRequest 0x01#8 s

/-- R133: request ReadInputStatus (function 2). -/
def execReqReadInputStatus (s : State) : Answer := readRequest 0x02#8 s

/-- R134: request ReadHoldingRegisters (function 3). -/
def execReqReadHoldingRegisters (s : State) : Answer := readRequest 0x03#8 s

/-- R135: request ReadInputRegisters (function 4). -/
def execReqReadInputRegisters (s : State) : Answer := readRequest 0x04#8 s

/-- R137: request ForceMultipleCoils (function 15), format RQ-WCOIL (R93). -/
def execReqForceMultipleCoils (s : State) : Answer :=
  withAttempt s fun r =>
    let t := s.txn r
    let q := t.quantity.toNat
    runRequest r (coilRequestBody 0x0F#8 s.par.coilRule t (s.rbEntry t)) (9 + coilBytes s.par.coilRule q)
      (coilEntries s.par.coilRule q) s

/-- R138: request PresetMultipleRegisters (function 16), format RQ-WREG (R92). -/
def execReqPresetMultipleRegisters (s : State) : Answer :=
  withAttempt s fun r =>
    let t := s.txn r
    let q := t.quantity.toNat
    runRequest r (registerRequestBody 0x10#8 t (s.rbEntry t)) (9 + 2 * q) q s

end Sys2Proof.Machine
end

