-- ==== Sys2Proof/Machine/Dispatch.lean ====
section
/-! DEFINITION. One arm per operation of the opcode table. -/

namespace Sys2Proof.Machine

def exec (i : Instr) (s : State) : Host.Outcome State Fault Refusal :=
  match i with
  -- request function bytes
  | .reqReadCoilStatus => Sys2Proof.Machine.execReqReadCoilStatus s
  | .reqReadInputStatus => Sys2Proof.Machine.execReqReadInputStatus s
  | .reqReadHoldingRegisters => Sys2Proof.Machine.execReqReadHoldingRegisters s
  | .reqReadInputRegisters => Sys2Proof.Machine.execReqReadInputRegisters s
  | .reqForceMultipleCoils => Sys2Proof.Machine.execReqForceMultipleCoils s
  | .reqPresetMultipleRegisters => Sys2Proof.Machine.execReqPresetMultipleRegisters s
  -- reply function bytes
  | .rplException function => Sys2Proof.Machine.execRplException function s
  | .rplReadCoilStatus => Sys2Proof.Machine.execRplReadCoilStatus s
  | .rplReadInputStatus => Sys2Proof.Machine.execRplReadInputStatus s
  | .rplReadHoldingRegisters => Sys2Proof.Machine.execRplReadHoldingRegisters s
  | .rplReadInputRegisters => Sys2Proof.Machine.execRplReadInputRegisters s
  | .rplForceMultipleCoils => Sys2Proof.Machine.execRplForceMultipleCoils s
  | .rplPresetMultipleRegisters => Sys2Proof.Machine.execRplPresetMultipleRegisters s
  | .rplUnsupported function => Sys2Proof.Machine.execRplUnsupported function s
  -- host commands
  | .configure baud timeout delay retries list count => Sys2Proof.Machine.execConfigure baud timeout delay retries list count s
  | .construct t slave function address quantity rb len => Sys2Proof.Machine.execConstruct t slave function address quantity rb len s
  | .run t => Sys2Proof.Machine.execRun t s
  | .crc bytes => Sys2Proof.Machine.execCrc bytes s

end Sys2Proof.Machine
end

