-- ==== Sys2Proof/Machine/Fetch.lean ====
section
/-! DEFINITION. What comes next: the operation the engine meets at the host port, in the current Transaction or in the reply
received, or its own work between them: one iteration of the receive loop (spec/43_receive_controller.md R180), the
exit checks (R185), one reading of the turnaround wait and Done (spec/44_transaction_engine.md R208). -/

namespace Sys2Proof.Machine

/-- What a step is to do. -/
inductive Fetched where
  /-- Run this operation on this state. -/
  | operation (i : Instr) (s : State)
  /-- The engine's own work, done: the state it leaves. -/
  | internal (s : State)
  /-- Bytes that are no operation. -/
  | reject (why : Reject)
deriving Repr

def Fetched.ofDecoded (s : State) : Except Reject Instr → Fetched
  | .ok i => .operation i s
  | .error why => .reject why

/-! ### The host port -/

/-- The state once the host's oldest input is taken; a new operation clears what the last one handed back. -/
def State.hostTaken (rest : List HostInput) (s : State) : State :=
  { s with ports := { s.ports with hostIn := rest, hostOut := none } }

/-- Between RUNs (R230): take a call, or the caller's own store (R47); with neither pending, wait (R282). -/
def fetchHost (s : State) : Fetched :=
  match s.ports.hostIn with
  | [] => .internal s
  | .call record :: rest => .ofDecoded (s.hostTaken rest) (decode .host record)
  | .store entry value :: rest =>
    .internal { s.setEntryAt entry value with ports := { s.ports with hostIn := rest } }

/-! ### The receive controller -/

/-- Store a polled byte, or note the overflow (R182). -/
def receiveAnswer (answer : Option Byte) (s : State) : State :=
  match answer with
  | none => s
  | some b =>
    if s.e.n < s.par.frameCap then
      let s' := s.setFbByte s.e.n b
      { s' with e := { s'.e with n := s.e.n + 1 } }
    else { s with e := { s.e with ovf := ovfAfterPoll s.e.ovf s.e.n s.par.frameCap (some b) } }

/-- `E.polls + 1` (R182). -/
def countPoll (s : State) : State := { s with e := { s.e with polls := s.e.polls + 1 } }

/-- The early-completion test (R183). -/
def earlyComplete (s : State) : Bool :=
  decide (s.par.earlyPolls ≤ s.e.polls) && decide (5 ≤ s.e.n) && crcOk s.e.n s

/-- The receive loop ends: the exit checks come next. -/
def State.leaveReceiveLoop (s : State) : State := { s with rxDone := true }

/-- The overall timeout has passed at the last reading (R181; strict, D8). -/
def responseTimedOut (s : State) : Bool := decide (s.c.responseTimeoutMs.toNat < elapsed s.clock s.e.t0)

/-- The poll of one iteration and what follows it (R182, R183). -/
def pollOnce (s : State) : State :=
  let s' := countPoll (receiveAnswer s.pollAnswer s.polled)
  if earlyComplete s' then s'.leaveReceiveLoop else s'

/-- One iteration of the receive loop (R180). -/
def receiveIteration (s : State) : State :=
  let s := s.readTimer
  if responseTimedOut s then s.leaveReceiveLoop else pollOnce s

/-- The exit checks (R185), the checksum check (R152), and the reply's function byte (R150, R151). -/
def exitChecks (r : Nat) (s : State) : Fetched :=
  if s.e.ovf then .internal (takeFailure r .receiveOverflow s)
  else if s.e.n < 5 then .internal (takeFailure r .receiveTooShort s)
  else if s.fbByte 0 ≠ (s.txn r).slaveId then .internal (takeFailure r .unexpectedSlaveId s)
  else if crcOk s.e.n s = false then .internal (takeFailure r .checksumMismatch s)
  else .ofDecoded s (decode .reply [s.fbByte 1])

/-! ### The turnaround -/

/-- The turnaround interval has passed at the last reading (R208; strict, D8). -/
def turnaroundOver (s : State) : Bool := decide (s.c.turnaroundDelayMs.toNat < elapsed s.clock s.e.tt)

/-- One reading of the turnaround wait (R208). -/
def turnaroundIteration (s : State) : State :=
  let s := s.readTimer
  if turnaroundOver s then { s with e := { s.e with phase := .done } } else s

/-! ### What comes next -/

/-- By `E.cur` and `E.phase`, the control point (R22). -/
def fetch (s : State) : Fetched :=
  match s.e.cur with
  | none => fetchHost s
  | some r =>
    match s.e.phase with
    | .idle => .ofDecoded s (decode .request [(s.txn r).functionCode])
    | .awaitingReply => if s.rxDone then exitChecks r s else .internal (receiveIteration s)
    | .turnaroundDelay => .internal (turnaroundIteration s)
    | .done => .internal (finishRun s)

/-! ### Placing an operation where it is fetched -/

/-- No fault, no attempt: the next step looks at the host port. -/
def placeHostCall (record : List Byte) (s : State) : State :=
  { s with
    e := { s.e with cur := none, fault := none }
    ports := { s.ports with hostIn := .call record :: s.ports.hostIn } }

/-- An attempt on the Transaction being driven (reference 0 when there is none) that is about to encode. -/
def placeRequest (f : Byte) (s : State) : State :=
  let r := s.e.cur.getD 0
  { s.modifyTxn r (fun t => { t with functionCode := f }) with
    e := { s.e with cur := some r, phase := .idle, fault := none } }

/-- A reply of eight bytes, its function byte `f`, its operand bytes zeros, its CRC valid, received whole from the
slave expected; the exit checks come next. -/
def placeReply (f : Byte) (s : State) : State :=
  let r := s.e.cur.getD 0
  let s' := appendCrc 6 (s.writeFb 0 [(s.txn r).slaveId, f, 0#8, 0#8, 0#8, 0#8])
  { s' with
    e := { s'.e with cur := some r, phase := .awaitingReply, n := 8, ovf := false, fault := none }
    rxDone := true }

end Sys2Proof.Machine
end

