-- ==== Sys2Proof/Machine/Step.lean ====
section
/-! DEFINITION. One step: the operation that comes next, or the engine's own work. A faulted state is never final and
nothing clears the fault (spec/60_exceptions.md R260): the machine has stopped. -/

namespace Sys2Proof.Machine

def step (s : State) : Host.Outcome State Fault Refusal :=
  match s.e.fault with
  | some f => .fault f
  | none =>
    match fetch s with
    | .operation i s' => exec i s'
    | .internal s' => .next s'
    | .reject why => .refused (.undecoded why)

/-- `s` with the operation of a table word placed where the next step takes it (notes/assumptions/16.md): a call at the
host port, the function code of the Transaction being driven, or the reply received. -/
def State.withFetchWord (s : State) (nbits w : Nat) : State :=
  match tableSpace nbits (tableOpcode nbits w) with
  | .host => placeHostCall (tableCall nbits w) s
  | .request => placeRequest (tableOpcode nbits w) s
  | .reply => placeReply (tableOpcode nbits w) s

end Sys2Proof.Machine
end

