-- ==== Sys2Proof/Safety.lean ====
section
/-! DEFINITION. What counts as a safe run, in the terms claims use: the invariant of the machine, a run of it, and what it means
that an attempt has resolved. Nothing of the machine's behaviour is defined here. -/

namespace Sys2Proof.Machine

/-! ### The invariant -/

/-- What holds of every state a run can reach: the parameters are admitted (spec/00_scope.md R9), the stores keep their canonical
form, the frame buffer and its counters keep within the capacity (spec/10_state.md R20, spec/43_receive_controller.md R182), the
overflow flag means a full buffer, the control point is one R22 allows, and an attempt is driven on a constructed
Transaction after CONFIGURE (spec/44_transaction_engine.md R200). -/
structure State.Inv (s : State) : Prop where
  params : s.par.admitted
  memory : Memory.wf s = true
  frame : ∀ c ∈ s.e.fb, c.1 < s.par.frameCap
  received : s.e.n ≤ s.par.frameCap
  encoded : s.e.txLen ≤ s.par.frameCap
  overflow : s.e.ovf = true → s.e.n = s.par.frameCap
  between : s.e.cur = none → s.e.phase = .idle
  loopLeft : s.rxDone = true → s.e.phase = .awaitingReply
  driven : ∀ r, s.e.cur = some r → s.e.configured = true ∧ (s.txn r).constructed = true
  records : ∀ p ∈ s.txns, p.2.constructed = true → isSupportedFunction p.2.functionCode = true

/-- No model fault has been raised (spec/60_exceptions.md R260: a faulted state is never final). -/
abbrev State.Safe (s : State) : Prop := s.e.fault = none

/-- `n` steps, stopping at the first fault or refusal. -/
def runSteps : Nat → State → Answer
  | 0, s => .next s
  | n + 1, s =>
    match step s with
    | .next t => runSteps n t
    | .fault f => .fault f
    | .refused why => .refused why

/-! ### Shapes of operations -/

/-- A request's frame length and the register-buffer entries its encoder reads (spec/41_request_encode.md R130). -/
def requestShape (rule : CoilRule) (q : Nat) : Instr → Option (Nat × Nat)
  | .reqReadCoilStatus => some (8, 0)
  | .reqReadInputStatus => some (8, 0)
  | .reqReadHoldingRegisters => some (8, 0)
  | .reqReadInputRegisters => some (8, 0)
  | .reqForceMultipleCoils => some (9 + coilBytes rule q, coilEntries rule q)
  | .reqPresetMultipleRegisters => some (9 + 2 * q, q)
  | _ => none

/-- The register-buffer entries a reply operation may write (spec/20_memory.md R65). -/
def replyEntries (rule : CoilRule) (q : Nat) : Instr → Nat
  | .rplReadCoilStatus => coilEntries rule q
  | .rplReadInputStatus => coilEntries rule q
  | .rplReadHoldingRegisters => q
  | .rplReadInputRegisters => q
  | _ => 0

/-- `t.retries` reaches the ceiling with one more failure (spec/44_transaction_engine.md R207). -/
def State.ceilingNext (s : State) (r : Nat) : Prop := s.c.maxRetries.toNat ≤ ((s.txn r).retries + 1#32).toNat

/-! ### What an attempt leaves -/

/-- The Transaction's arguments (spec/10_state.md R40) are unchanged. -/
def Txn.sameArguments (t u : Txn) : Prop :=
  u.slaveId = t.slaveId ∧ u.functionCode = t.functionCode ∧ u.startAddress = t.startAddress ∧
    u.quantity = t.quantity ∧ u.rb = t.rb ∧ u.rbLen = t.rbLen ∧ u.constructed = t.constructed

/-- Nothing of the engine but the outcome, the phase and the turnaround's start; no configuration, parameter, frame
byte or other Transaction; nothing sent, no poll answer consumed, no host input taken. -/
def State.sameButResolution (r : Nat) (s t : State) : Prop :=
  t.par = s.par ∧ t.c = s.c ∧ (∀ i, t.fbByte i = s.fbByte i) ∧ (∀ k, k ≠ r → t.txn k = s.txn k) ∧
    (s.txn r).sameArguments (t.txn r) ∧ (t.txn r).requestsIssued = (s.txn r).requestsIssued ∧
    t.e.cur = s.e.cur ∧ t.e.txLen = s.e.txLen ∧ t.e.n = s.e.n ∧ t.e.ovf = s.e.ovf ∧ t.e.polls = s.e.polls ∧
    t.e.t0 = s.e.t0 ∧ t.e.dispatchCount = s.e.dispatchCount ∧ t.e.configured = s.e.configured ∧
    t.ports.hostIn = s.ports.hostIn ∧ t.ports.hostOut = s.ports.hostOut ∧ t.ports.serialIn = s.ports.serialIn ∧
    t.ports.serialOut = s.ports.serialOut

/-- The turnaround delay has begun at the last timer reading (spec/44_transaction_engine.md R206). -/
def State.turningAround (t : State) : Prop := t.e.phase = .turnaroundDelay ∧ t.e.tt = t.clock

/-- From `s` the attempt on `r` has resolved as FAIL(kind): the whole failure path (spec/44_transaction_engine.md R205, R207, R206;
spec/60_exceptions.md R251, R256). -/
def State.failedWith (r : Nat) (kind : ErrorKind) (s t : State) : Prop :=
  t.e.outcome = some (.fail kind) ∧ t.turningAround ∧ t.e.fault = s.e.fault ∧
    (t.txn r).failedRequests = (s.txn r).failedRequests + 1#32 ∧
    (t.txn r).exceptionErrors =
      (if kind = .exceptionResponse then (s.txn r).exceptionErrors + 1#32 else (s.txn r).exceptionErrors) ∧
    (t.txn r).successfulRequests = (s.txn r).successfulRequests ∧
    (t.txn r).receivedCount = (s.txn r).receivedCount ∧
    (s.ceilingNext r → (t.txn r).retries = 0#32 ∧ (t.txn r).connectionActive = false) ∧
    (¬ s.ceilingNext r → (t.txn r).retries = (s.txn r).retries + 1#32 ∧
      (t.txn r).connectionActive = (s.txn r).connectionActive)

/-- The success handler has run on `r` (spec/44_transaction_engine.md R204, R206). -/
def State.succeeded (r : Nat) (s t : State) : Prop :=
  t.turningAround ∧ t.e.fault = s.e.fault ∧
    (t.txn r).successfulRequests = (s.txn r).successfulRequests + 1#32 ∧ (t.txn r).retries = 0#32 ∧
    (t.txn r).failedRequests = (s.txn r).failedRequests ∧
    (t.txn r).exceptionErrors = (s.txn r).exceptionErrors ∧
    (t.txn r).connectionActive = (s.txn r).connectionActive

/-- From `s` the attempt on `r` has resolved as SUCCESS by a reply (spec/42_reply_decode.md R155, R157, R159; spec/10_state.md R43). -/
def State.succeededByReply (r : Nat) (s t : State) : Prop :=
  t.e.outcome = some .success ∧ State.succeeded r s t ∧ (t.txn r).receivedCount = (s.txn r).quantity

/-! ### Frames and control points, for statements -/

/-- `CrcOk(m)` read off the frame buffer (spec/40_crc.md R123). -/
def State.crcHolds (s : State) (m : Nat) : Prop :=
  le16 (s.fbByte (m - 2)) (s.fbByte (m - 1)) = crc16 ((List.range (m - 2)).map s.fbByte)

/-- A frame: its body and the body's CRC, low byte first (spec/30_encoding.md R90, spec/40_crc.md R122). -/
def withCrc (body : List Byte) : List Byte := body ++ [lo (crc16 body), hi (crc16 body)]

/-- No fault, and the engine is in this phase of an attempt on `r`. -/
def State.inPhase (s : State) (r : Nat) (p : Phase) : Prop :=
  s.e.fault = none ∧ s.e.cur = some r ∧ s.e.phase = p

/-- The engine is about to make an iteration of the receive loop (spec/43_receive_controller.md R180). -/
def State.receiving (s : State) (r : Nat) : Prop := s.inPhase r .awaitingReply ∧ s.rxDone = false

/-- The receive loop has ended (spec/43_receive_controller.md R184, R185). -/
def State.loopOver (s : State) (r : Nat) : Prop := s.inPhase r .awaitingReply ∧ s.rxDone = true

/-- The reply has passed the exit checks and the CRC check (spec/43_receive_controller.md R185, spec/42_reply_decode.md R152). -/
def State.replyPasses (s : State) (r : Nat) : Prop :=
  s.loopOver r ∧ s.e.ovf = false ∧ 5 ≤ s.e.n ∧ s.fbByte 0 = (s.txn r).slaveId ∧ s.crcHolds s.e.n

/-- The reading `Now()` gives next when the script says `d` milliseconds pass first (spec/45_host_commands.md R232). -/
def State.nextReading (s : State) (d : Nat) : Word := BitVec.ofNat 32 (s.ports.time + d)

/-- The next step takes a host call with this selector. -/
def State.takesCall (s : State) (selector : Byte) : Prop :=
  s.e.fault = none ∧ s.e.cur = none ∧
    ∃ ops rest, s.ports.hostIn = .call (selector :: ops) :: rest

end Sys2Proof.Machine
end

