-- ==== Sys2Proof/Certificates/Slice0/Obligations.lean ====
section
/-! DEFINITION. The statements for the provers. Each formalises rules of spec/, named in its docstring and in OBLIGATIONS.json. -/

open Sys2Proof Sys2Proof.Machine

/-! ### The CRC engine -/

/-- R120 over natural numbers: initial 0xFFFF; each byte is XORed in; eight times, an odd register is halved and
XORed with 0xA001, an even one halved. -/
def Obligations.CrcFollowsTheShiftRule : Prop :=
  ∀ s : List Byte,
    (crc16 s).toNat =
      s.foldl
        (fun r b => (fun x => if x % 2 = 1 then (x / 2) ^^^ 0xA001 else x / 2)^[8] (r ^^^ b.toNat)) 0xFFFF

/-- R124: the register after also processing the two CRC bytes of a frame is 0x0000. The spec marks this as derived. -/
def Obligations.CrcOfAFrameWithItsCrcIsZero : Prop := ∀ body : List Byte, crc16 (withCrc body) = 0x0000#16

/-- R121: CRC hands back Crc16 of its bytes and changes nothing else, whatever the state. Where the value is handed
back (ports.hostOut) is the model's choice, log 20. -/
def Obligations.CrcCommandHandsBackTheChecksum : Prop :=
  ∀ (bytes : List Byte) (s : State),
    ∃ t, exec (.crc bytes) s = .next t ∧ t.ports.hostOut = some (crc16 bytes) ∧
      t = { s with ports := { s.ports with hostOut := t.ports.hostOut } }

/-! ### Coil counts -/

/-- R131: BC(q) under both rules, RC(q), and when the two rules differ. That RC is the same under both rules, and
where the rules differ, are inferences the spec marks as its own. -/
def Obligations.CoilCountsFollowTheRule : Prop :=
  ∀ q : Nat,
    coilBytes .source q = (if q % 16 = 0 then 2 * (q / 16) else 2 * (q / 16) + 1) ∧
      8 * coilBytes .modbus q ≥ q ∧ 8 * coilBytes .modbus q < q + 8 ∧
      coilEntries .source q = (if q % 16 = 0 then q / 16 else q / 16 + 1) ∧
      coilEntries .modbus q = coilEntries .source q ∧
      (coilBytes .source q ≠ coilBytes .modbus q ↔ 9 ≤ q % 16) ∧
      (9 ≤ q % 16 → coilBytes .source q + 1 = coilBytes .modbus q)

/-! ### Requests -/

/-- R91, R132 to R135: a read request always runs, and sends exactly these eight bytes. -/
def Obligations.ReadRequestsSendEightBytes : Prop :=
  ∀ (s : State) (r : Nat) (i : Instr) (f : Byte),
    (i, f) ∈ [(Instr.reqReadCoilStatus, 0x01#8), (Instr.reqReadInputStatus, 0x02#8),
      (Instr.reqReadHoldingRegisters, 0x03#8), (Instr.reqReadInputRegisters, 0x04#8)] →
    s.e.cur = some r → 8 ≤ s.par.frameCap →
    ∃ t frame, exec i s = .next t ∧
      frame = withCrc [(s.txn r).slaveId, f, hi (s.txn r).startAddress, lo (s.txn r).startAddress,
        hi (s.txn r).quantity, lo (s.txn r).quantity] ∧
      frame.length = 8 ∧
      t.ports.serialOut = s.ports.serialOut ++ [.sent frame] ∧ t.e.txLen = 8 ∧
      (∀ k, k < 8 → t.fbByte k = frame.getD k 0#8) ∧ (∀ k, 8 ≤ k → t.fbByte k = s.fbByte k) ∧
      (t.txn r).requestsIssued = (s.txn r).requestsIssued + 1#32 ∧ t.e.fault = s.e.fault

/-- R93, R137: a function 15 request that fits runs, and sends 9 + BC bytes: header, byte count, the coil data low byte
first with the last high byte left out when BC is odd, CRC. -/
def Obligations.CoilRequestSendsItsFrame : Prop :=
  ∀ (s : State) (r bc : Nat),
    s.e.cur = some r → bc = coilBytes s.par.coilRule (s.txn r).quantity.toNat →
    9 + bc ≤ s.par.frameCap → s.par.frameCap ≤ 256 →
    coilEntries s.par.coilRule (s.txn r).quantity.toNat ≤ (s.txn r).rbLen →
    ∃ t frame, exec .reqForceMultipleCoils s = .next t ∧ t.ports.serialOut = s.ports.serialOut ++ [.sent frame] ∧
      frame.length = 9 + bc ∧
      frame.take 6 = [(s.txn r).slaveId, 0x0F#8, hi (s.txn r).startAddress, lo (s.txn r).startAddress,
        hi (s.txn r).quantity, lo (s.txn r).quantity] ∧
      (frame.getD 6 0#8).toNat = bc ∧
      (∀ k, k < bc → k % 2 = 0 → frame.getD (7 + k) 0#8 = lo (s.rbEntry (s.txn r) (k / 2))) ∧
      (∀ k, k < bc → k % 2 = 1 → frame.getD (7 + k) 0#8 = hi (s.rbEntry (s.txn r) (k / 2))) ∧
      frame.drop (7 + bc) = [lo (crc16 (frame.take (7 + bc))), hi (crc16 (frame.take (7 + bc)))] ∧
      t.e.txLen = 9 + bc ∧ (∀ k, k < 9 + bc → t.fbByte k = frame.getD k 0#8) ∧
      (∀ k, 9 + bc ≤ k → t.fbByte k = s.fbByte k) ∧
      (t.txn r).requestsIssued = (s.txn r).requestsIssued + 1#32 ∧ t.e.fault = s.e.fault

/-- R92, R138: a function 16 request that fits runs, and sends 9 + 2q bytes: header, byte count 2q, each entry high byte
first, CRC. -/
def Obligations.RegisterRequestSendsItsFrame : Prop :=
  ∀ (s : State) (r q : Nat),
    s.e.cur = some r → q = (s.txn r).quantity.toNat → 9 + 2 * q ≤ s.par.frameCap → s.par.frameCap ≤ 256 →
    q ≤ (s.txn r).rbLen →
    ∃ t frame, exec .reqPresetMultipleRegisters s = .next t ∧
      t.ports.serialOut = s.ports.serialOut ++ [.sent frame] ∧ frame.length = 9 + 2 * q ∧
      frame.take 6 = [(s.txn r).slaveId, 0x10#8, hi (s.txn r).startAddress, lo (s.txn r).startAddress,
        hi (s.txn r).quantity, lo (s.txn r).quantity] ∧
      (frame.getD 6 0#8).toNat = 2 * q ∧
      (∀ k, k < q → frame.getD (7 + 2 * k) 0#8 = hi (s.rbEntry (s.txn r) k) ∧
        frame.getD (8 + 2 * k) 0#8 = lo (s.rbEntry (s.txn r) k)) ∧
      frame.drop (7 + 2 * q) = [lo (crc16 (frame.take (7 + 2 * q))), hi (crc16 (frame.take (7 + 2 * q)))] ∧
      t.e.txLen = 9 + 2 * q ∧ (∀ k, k < 9 + 2 * q → t.fbByte k = frame.getD k 0#8) ∧
      (∀ k, 9 + 2 * q ≤ k → t.fbByte k = s.fbByte k) ∧
      (t.txn r).requestsIssued = (s.txn r).requestsIssued + 1#32 ∧ t.e.fault = s.e.fault

/-- R61: a request longer than the frame buffer raises EncodeOverflow; nothing is written, sent or counted. -/
def Obligations.RequestTooLongRaisesEncodeOverflow : Prop :=
  ∀ (s : State) (r len need : Nat) (i : Instr),
    s.e.cur = some r → requestShape s.par.coilRule (s.txn r).quantity.toNat i = some (len, need) →
    s.par.frameCap < len → exec i s = .next { s with e := { s.e with fault := some .encodeOverflow } }

/-- R64, R130 (encoders): a request that fits the frame but needs more entries than the register buffer has raises
BufferOutOfBounds; nothing is written, sent or counted. -/
def Obligations.RequestBufferTooSmallRaisesFault : Prop :=
  ∀ (s : State) (r len need : Nat) (i : Instr),
    s.e.cur = some r → requestShape s.par.coilRule (s.txn r).quantity.toNat i = some (len, need) →
    len ≤ s.par.frameCap → (s.txn r).rbLen < need →
    exec i s = .next { s with e := { s.e with fault := some .bufferOutOfBounds } }

/-- R202: a broadcast, of any function code, is encoded, sent and counted, then goes straight to the success handler:
no receive phase, no poll, receivedCount and the register buffer not written. -/
def Obligations.BroadcastSkipsTheReply : Prop :=
  ∀ (s : State) (r len need : Nat) (i : Instr),
    s.e.cur = some r → requestShape s.par.coilRule (s.txn r).quantity.toNat i = some (len, need) →
    len ≤ s.par.frameCap → need ≤ (s.txn r).rbLen → (s.txn r).slaveId = 0#8 →
    ∃ t frame, exec i s = .next t ∧ t.ports.serialOut = s.ports.serialOut ++ [.sent frame] ∧ frame.length = len ∧
      (t.txn r).requestsIssued = (s.txn r).requestsIssued + 1#32 ∧ State.succeeded r s t ∧
      (t.txn r).receivedCount = (s.txn r).receivedCount ∧ (∀ a, t.entryAt a = s.entryAt a) ∧
      t.ports.serialIn = s.ports.serialIn ∧ t.e.n = s.e.n ∧ t.e.polls = s.e.polls ∧ t.e.ovf = s.e.ovf ∧ t.e.t0 = s.e.t0

/-- R201 with R180's first line: a request to a slave is sent and counted, then the receive phase begins fresh. -/
def Obligations.RequestOpensTheReceivePhase : Prop :=
  ∀ (s : State) (r len need : Nat) (i : Instr),
    s.e.cur = some r → requestShape s.par.coilRule (s.txn r).quantity.toNat i = some (len, need) →
    len ≤ s.par.frameCap → need ≤ (s.txn r).rbLen → (s.txn r).slaveId ≠ 0#8 →
    ∃ t frame, exec i s = .next t ∧ t.ports.serialOut = s.ports.serialOut ++ [.sent frame] ∧ frame.length = len ∧
      t.txn r = { s.txn r with requestsIssued := (s.txn r).requestsIssued + 1#32 } ∧
      t.e.phase = .awaitingReply ∧ t.rxDone = false ∧ t.e.t0 = t.clock ∧ t.e.n = 0 ∧ t.e.ovf = false ∧
      t.e.polls = 0 ∧ t.e.outcome = none ∧ t.e.tt = s.e.tt ∧ t.e.fault = s.e.fault ∧
      t.ports.serialIn = s.ports.serialIn

/-- The frame of the six requests (R139, R201): the frame buffer beyond the request, every register-buffer entry, the
configuration, the other Transactions and this one's arguments, the host port and the bytes the collaborator holds. -/
def Obligations.RequestsChangeNothingElse : Prop :=
  ∀ (s t : State) (r len need : Nat) (i : Instr),
    s.e.cur = some r → requestShape s.par.coilRule (s.txn r).quantity.toNat i = some (len, need) →
    exec i s = .next t →
    (∀ k, len ≤ k → t.fbByte k = s.fbByte k) ∧ (∀ a, t.entryAt a = s.entryAt a) ∧
      (∀ k, k ≠ r → t.txn k = s.txn k) ∧ (s.txn r).sameArguments (t.txn r) ∧
      (t.txn r).receivedCount = (s.txn r).receivedCount ∧ (t.txn r).connectionActive = (s.txn r).connectionActive ∧
      (t.txn r).failedRequests = (s.txn r).failedRequests ∧ (t.txn r).exceptionErrors = (s.txn r).exceptionErrors ∧
      t.par = s.par ∧ t.c = s.c ∧ t.e.cur = s.e.cur ∧ t.e.dispatchCount = s.e.dispatchCount ∧
      t.e.configured = s.e.configured ∧ t.ports.hostIn = s.ports.hostIn ∧ t.ports.hostOut = s.ports.hostOut ∧
      t.ports.serialIn = s.ports.serialIn

/-! ### Replies -/

/-- R153: every byte with bit 7 set is an exception reply, and it fails the attempt with ExceptionResponse; neither the
register buffer nor receivedCount is written. -/
def Obligations.ExceptionReplyFailsTheAttempt : Prop :=
  ∀ (s : State) (r : Nat) (f : Byte),
    s.e.cur = some r → f.getLsbD 7 = true →
    decode .reply [f] = .ok (.rplException f) ∧
      ∃ t, exec (.rplException f) s = .next t ∧ State.failedWith r .exceptionResponse s t ∧
        ∀ a, t.entryAt a = s.entryAt a

/-- R161: a function byte with bit 7 clear that is none of the six fails the attempt with UnsupportedFunctionInReply. -/
def Obligations.UnsupportedReplyFailsTheAttempt : Prop :=
  ∀ (s : State) (r : Nat) (f : Byte),
    s.e.cur = some r → f.getLsbD 7 = false → f ∉ [0x01#8, 0x02#8, 0x03#8, 0x04#8, 0x0F#8, 0x10#8] →
    decode .reply [f] = .ok (.rplUnsupported f) ∧
      ∃ t, exec (.rplUnsupported f) s = .next t ∧ State.failedWith r .unsupportedFunctionInReply s t ∧
        ∀ a, t.entryAt a = s.entryAt a

/-- R157, R158: a register reply whose byte count is 2q is accepted: each register received is stored high byte first,
receivedCount becomes q; a register whose bytes were not received gets some value. Entry k of the register buffer
stands at t.RB + k (log 7). -/
def Obligations.RegisterReplyStoresTheRegisters : Prop :=
  ∀ (s : State) (r q : Nat) (i : Instr),
    i ∈ [Instr.rplReadHoldingRegisters, Instr.rplReadInputRegisters] →
    s.e.cur = some r → q = (s.txn r).quantity.toNat → 2 < s.e.n → (s.fbByte 2).toNat = 2 * q →
    q ≤ (s.txn r).rbLen → 3 + 2 * q ≤ s.par.frameCap →
    ∃ t, exec i s = .next t ∧ State.succeededByReply r s t ∧
      (∀ k, k < q → 4 + 2 * k < s.e.n →
        t.entryAt ((s.txn r).rb + k) = be16 (s.fbByte (3 + 2 * k)) (s.fbByte (4 + 2 * k))) ∧
      (∀ a, a < (s.txn r).rb ∨ (s.txn r).rb + q ≤ a → t.entryAt a = s.entryAt a)

/-- R155, R156: a coil reply whose byte count is BC(q) is accepted: each entry received is stored low byte first, a
lone last byte with high byte 0x00, receivedCount becomes q. Entry k of the register buffer stands at t.RB + k (log
7). -/
def Obligations.CoilReplyStoresTheCoils : Prop :=
  ∀ (s : State) (r bc rc : Nat) (i : Instr),
    i ∈ [Instr.rplReadCoilStatus, Instr.rplReadInputStatus] →
    s.e.cur = some r → bc = coilBytes s.par.coilRule (s.txn r).quantity.toNat →
    rc = coilEntries s.par.coilRule (s.txn r).quantity.toNat → 2 < s.e.n → (s.fbByte 2).toNat = bc →
    rc ≤ (s.txn r).rbLen → 3 + bc ≤ s.par.frameCap →
    ∃ t, exec i s = .next t ∧ State.succeededByReply r s t ∧
      (∀ k, 2 * k + 1 < bc → 4 + 2 * k < s.e.n →
        t.entryAt ((s.txn r).rb + k) = le16 (s.fbByte (3 + 2 * k)) (s.fbByte (4 + 2 * k))) ∧
      (∀ k, 2 * k + 1 = bc → 3 + 2 * k < s.e.n → t.entryAt ((s.txn r).rb + k) = (s.fbByte (3 + 2 * k)).setWidth 16) ∧
      (∀ a, a < (s.txn r).rb ∨ (s.txn r).rb + rc ≤ a → t.entryAt a = s.entryAt a)

/-- R159, R160: an echo reply of the request's address and quantity is accepted; the register buffer is not written. -/
def Obligations.EchoReplyThatMatchesSucceeds : Prop :=
  ∀ (s : State) (r : Nat) (i : Instr),
    i ∈ [Instr.rplForceMultipleCoils, Instr.rplPresetMultipleRegisters] →
    s.e.cur = some r → 5 < s.e.n → be16 (s.fbByte 2) (s.fbByte 3) = (s.txn r).startAddress →
    be16 (s.fbByte 4) (s.fbByte 5) = (s.txn r).quantity →
    ∃ t, exec i s = .next t ∧ State.succeededByReply r s t ∧ ∀ a, t.entryAt a = s.entryAt a

/-- R159, R160: an echo reply that differs in address or quantity fails with EchoMismatch, whatever the bytes that were
not received. -/
def Obligations.EchoReplyThatDiffersFails : Prop :=
  ∀ (s : State) (r : Nat) (i : Instr),
    i ∈ [Instr.rplForceMultipleCoils, Instr.rplPresetMultipleRegisters] →
    s.e.cur = some r → 6 ≤ s.par.frameCap →
    (3 < s.e.n ∧ be16 (s.fbByte 2) (s.fbByte 3) ≠ (s.txn r).startAddress) ∨
      (5 < s.e.n ∧ be16 (s.fbByte 4) (s.fbByte 5) ≠ (s.txn r).quantity) →
    ∃ t, exec i s = .next t ∧ State.failedWith r .echoMismatch s t ∧ ∀ a, t.entryAt a = s.entryAt a

/-- R155 to R158 and R162: a byte count other than the expected one, compared at full width, fails with
ReplyLengthMismatch and writes neither the register buffer nor receivedCount. -/
def Obligations.ReplyLengthMismatchFails : Prop :=
  ∀ (s : State) (r expected : Nat) (i : Instr),
    (i, expected) ∈ [(Instr.rplReadCoilStatus, coilBytes s.par.coilRule (s.txn r).quantity.toNat),
      (Instr.rplReadInputStatus, coilBytes s.par.coilRule (s.txn r).quantity.toNat),
      (Instr.rplReadHoldingRegisters, 2 * (s.txn r).quantity.toNat),
      (Instr.rplReadInputRegisters, 2 * (s.txn r).quantity.toNat)] →
    s.e.cur = some r → 2 < s.e.n → (s.fbByte 2).toNat ≠ expected →
    ∃ t, exec i s = .next t ∧ State.failedWith r .replyLengthMismatch s t ∧ ∀ a, t.entryAt a = s.entryAt a

/-- R64 (decoders), R155, R157: a matching reply that needs more entries than the register buffer has raises
BufferOutOfBounds before any write. -/
def Obligations.ReplyBufferTooSmallRaisesFault : Prop :=
  ∀ (s : State) (r expected : Nat) (i : Instr),
    (i, expected) ∈ [(Instr.rplReadCoilStatus, coilBytes s.par.coilRule (s.txn r).quantity.toNat),
      (Instr.rplReadInputStatus, coilBytes s.par.coilRule (s.txn r).quantity.toNat),
      (Instr.rplReadHoldingRegisters, 2 * (s.txn r).quantity.toNat),
      (Instr.rplReadInputRegisters, 2 * (s.txn r).quantity.toNat)] →
    s.e.cur = some r → 2 < s.e.n → (s.fbByte 2).toNat = expected →
    (s.txn r).rbLen < replyEntries s.par.coilRule (s.txn r).quantity.toNat i →
    exec i s = .next { s with e := { s.e with fault := some .bufferOutOfBounds } }

/-- R62, R260: a register reply, or a coil reply, whose data runs past the frame buffer raises ReadBeyondFrame; no
counter changes, and the registers received stay written. Entry k of the register buffer stands at t.RB + k (log 7). -/
def Obligations.ReplyPastTheBufferRaisesFault : Prop :=
  (∀ (s : State) (r q : Nat) (i : Instr),
    i ∈ [Instr.rplReadHoldingRegisters, Instr.rplReadInputRegisters] →
    s.e.cur = some r → q = (s.txn r).quantity.toNat → 2 < s.e.n → s.e.n ≤ s.par.frameCap →
    (s.fbByte 2).toNat = 2 * q → q ≤ (s.txn r).rbLen → s.par.frameCap < 3 + 2 * q →
    ∃ t, exec i s = .next t ∧ t.e = { s.e with fault := some .readBeyondFrame } ∧ t.txns = s.txns ∧
      (∀ k, k < q → 4 + 2 * k < s.e.n →
        t.entryAt ((s.txn r).rb + k) = be16 (s.fbByte (3 + 2 * k)) (s.fbByte (4 + 2 * k))) ∧
      (∀ k, s.par.frameCap ≤ 4 + 2 * k → t.entryAt ((s.txn r).rb + k) = s.entryAt ((s.txn r).rb + k))) ∧
  (∀ (s : State) (r bc : Nat) (i : Instr),
    i ∈ [Instr.rplReadCoilStatus, Instr.rplReadInputStatus] →
    s.e.cur = some r → bc = coilBytes s.par.coilRule (s.txn r).quantity.toNat → 2 < s.e.n →
    s.e.n ≤ s.par.frameCap → (s.fbByte 2).toNat = bc →
    coilEntries s.par.coilRule (s.txn r).quantity.toNat ≤ (s.txn r).rbLen → s.par.frameCap < 3 + bc →
    ∃ t, exec i s = .next t ∧ t.e = { s.e with fault := some .readBeyondFrame } ∧ t.txns = s.txns)

/-- R162: a reply operation that ends in an engine error writes neither the register buffer nor receivedCount. -/
def Obligations.FailedReplyLeavesNoPartialResult : Prop :=
  ∀ (s t : State) (r : Nat) (i : Instr) (kind : ErrorKind),
    i.space = .reply → s.e.cur = some r → s.e.outcome = none → exec i s = .next t →
    t.e.outcome = some (.fail kind) →
    (∀ a, t.entryAt a = s.entryAt a) ∧ (t.txn r).receivedCount = (s.txn r).receivedCount

/-- The frame of the eight reply operations (R49, R65): only the Transaction's counters and flag, its receivedCount, the
entries its reply may write, the outcome, the phase and the turnaround's start can change. -/
def Obligations.RepliesChangeNothingElse : Prop :=
  ∀ (s t : State) (r : Nat) (i : Instr),
    i.space = .reply → s.e.cur = some r → exec i s = .next t →
    State.sameButResolution r s t ∧
      ∀ a, a < (s.txn r).rb ∨ (s.txn r).rb + replyEntries s.par.coilRule (s.txn r).quantity.toNat i ≤ a →
        t.entryAt a = s.entryAt a

/-! ### The receive controller -/

/-- R181: when the reading shows more than the response timeout since E.t0, the loop ends; nothing is polled. That
leaving the loop is a step of its own (rxDone) is the model's choice, log 1; the scripted reading, log 3. -/
def Obligations.ReceiveLoopEndsAtTheTimeout : Prop :=
  ∀ (s : State) (r d : Nat) (ds : List Nat),
    s.receiving r → s.ports.ticks = d :: ds →
    s.c.responseTimeoutMs.toNat < (s.nextReading d - s.e.t0).toNat →
    step s = .next { s with ports := { s.ports with ticks := ds, time := s.ports.time + d }, rxDone := true }

/-- R182, R183: a byte polled while the buffer has room is stored at E.n; the loop ends early when, with this
iteration counted, P_EARLY_POLLS is reached, five bytes are buffered and their CRC holds. The scripted answer and
reading are the model's form of the two oracles, logs 2 and 3. -/
def Obligations.PolledByteIsStored : Prop :=
  ∀ (s : State) (r d : Nat) (ds : List Nat) (b : Byte) (rest : List (Option Byte)),
    s.receiving r → s.ports.ticks = d :: ds → (s.nextReading d - s.e.t0).toNat ≤ s.c.responseTimeoutMs.toNat →
    s.ports.serialIn = some b :: rest → s.e.n < s.par.frameCap →
    ∃ t, step s = .next t ∧ t.fbByte s.e.n = b ∧ (∀ k, k ≠ s.e.n → t.fbByte k = s.fbByte k) ∧ t.e.n = s.e.n + 1 ∧
      t.e.ovf = s.e.ovf ∧ t.e.polls = s.e.polls + 1 ∧ t.ports.serialIn = rest ∧ t.e.phase = .awaitingReply ∧
      (t.rxDone = true ↔ s.par.earlyPolls ≤ s.e.polls + 1 ∧ 5 ≤ s.e.n + 1 ∧ t.crcHolds (s.e.n + 1))

/-- R25, R182: a byte polled while the buffer is full is consumed, not stored, and sets E.ovf; the early check is made
all the same (R183). The scripted answer and reading are the model's form of the two oracles, logs 2 and 3. -/
def Obligations.ByteBeyondCapacitySetsOverflow : Prop :=
  ∀ (s : State) (r d : Nat) (ds : List Nat) (b : Byte) (rest : List (Option Byte)),
    s.receiving r → s.ports.ticks = d :: ds → (s.nextReading d - s.e.t0).toNat ≤ s.c.responseTimeoutMs.toNat →
    s.ports.serialIn = some b :: rest → s.e.n = s.par.frameCap →
    ∃ t, step s = .next t ∧ (∀ k, t.fbByte k = s.fbByte k) ∧ t.e.n = s.e.n ∧ t.e.ovf = true ∧
      t.e.polls = s.e.polls + 1 ∧ t.ports.serialIn = rest ∧
      (t.rxDone = true ↔ s.par.earlyPolls ≤ s.e.polls + 1 ∧ 5 ≤ s.e.n ∧ s.crcHolds s.e.n)

/-- R182, R183: a poll that finds no byte stores nothing and counts; the early check is made all the same. The
scripted answer and reading are the model's form of the two oracles, logs 2 and 3. -/
def Obligations.EmptyPollOnlyCounts : Prop :=
  ∀ (s : State) (r d : Nat) (ds : List Nat) (rest : List (Option Byte)),
    s.receiving r → s.ports.ticks = d :: ds → (s.nextReading d - s.e.t0).toNat ≤ s.c.responseTimeoutMs.toNat →
    s.ports.serialIn = none :: rest →
    ∃ t, step s = .next t ∧ (∀ k, t.fbByte k = s.fbByte k) ∧ t.e.n = s.e.n ∧ t.e.ovf = s.e.ovf ∧
      t.e.polls = s.e.polls + 1 ∧ t.ports.serialIn = rest ∧
      (t.rxDone = true ↔ s.par.earlyPolls ≤ s.e.polls + 1 ∧ 5 ≤ s.e.n ∧ s.crcHolds s.e.n)

/-- R188: an iteration of the receive loop never sends and never writes a Transaction or its buffer, and writes the
frame buffer only below P_FRAME_CAP. -/
def Obligations.ReceiveLoopOnlyFillsTheFrame : Prop :=
  ∀ (s t : State) (r : Nat),
    s.receiving r → step s = .next t →
    t.ports.serialOut = s.ports.serialOut ∧ t.txns = s.txns ∧ t.regs = s.regs ∧ t.c = s.c ∧ t.par = s.par ∧
      (∀ k, s.par.frameCap ≤ k → t.fbByte k = s.fbByte k) ∧ t.e.cur = s.e.cur ∧ t.e.phase = .awaitingReply ∧
      t.e.txLen = s.e.txLen ∧ t.e.t0 = s.e.t0 ∧ t.e.tt = s.e.tt ∧ t.e.outcome = s.e.outcome ∧
      t.e.dispatchCount = s.e.dispatchCount ∧ t.ports.hostIn = s.ports.hostIn

/-- R185, R152, R253, with R162: the exit checks and the checksum check, in their order, each by the one failure path;
each leaves every register-buffer entry as it was, and all but the outcome, the phase, the turnaround's start and the
Transaction's counters and flag. -/
def Obligations.ExitChecksFailInOrder : Prop :=
  ∀ (s : State) (r : Nat),
    s.loopOver r →
    (s.e.ovf = true →
        ∃ t, step s = .next t ∧ State.failedWith r .receiveOverflow s t ∧ State.sameButResolution r s t ∧
          ∀ a, t.entryAt a = s.entryAt a) ∧
      (s.e.ovf = false → s.e.n < 5 →
        ∃ t, step s = .next t ∧ State.failedWith r .receiveTooShort s t ∧ State.sameButResolution r s t ∧
          ∀ a, t.entryAt a = s.entryAt a) ∧
      (s.e.ovf = false → 5 ≤ s.e.n → s.fbByte 0 ≠ (s.txn r).slaveId →
        ∃ t, step s = .next t ∧ State.failedWith r .unexpectedSlaveId s t ∧ State.sameButResolution r s t ∧
          ∀ a, t.entryAt a = s.entryAt a) ∧
      (s.e.ovf = false → 5 ≤ s.e.n → s.fbByte 0 = (s.txn r).slaveId → ¬ s.crcHolds s.e.n →
        ∃ t, step s = .next t ∧ State.failedWith r .checksumMismatch s t ∧ State.sameButResolution r s t ∧
          ∀ a, t.entryAt a = s.entryAt a)

/-! ### The transaction engine -/

/-- R22, R23, R150, R230: a step runs the operation decoded at the host port (between RUNs), from t.functionCode (in
IDLE) or from byte 1 of a reply that passed the checks. The bytes of a host call are the model's layout (log 6), and
the step that takes one removes it and clears what the last call handed back (log 20). -/
def Obligations.StepRunsTheDecodedOperation : Prop :=
  ∀ (s : State) (i : Instr),
    (∀ record rest, s.e.fault = none → s.e.cur = none → s.ports.hostIn = .call record :: rest →
      decode .host record = .ok i →
      step s = exec i { s with ports := { s.ports with hostIn := rest, hostOut := none } }) ∧
      (∀ r, s.inPhase r .idle → decode .request [(s.txn r).functionCode] = .ok i → step s = exec i s) ∧
      (∀ r, s.replyPasses r → decode .reply [s.fbByte 1] = .ok i → step s = exec i s)

/-- R208: the turnaround wait ends at the first reading that shows more than the interval since E.tt. One reading is
one step (log 1), scripted (log 3). -/
def Obligations.TurnaroundWaitsForTheInterval : Prop :=
  ∀ (s : State) (r d : Nat) (ds : List Nat),
    s.inPhase r .turnaroundDelay → s.ports.ticks = d :: ds →
    (s.c.turnaroundDelayMs.toNat < (s.nextReading d - s.e.tt).toNat →
      step s = .next { s with e := { s.e with phase := .done },
                              ports := { s.ports with ticks := ds, time := s.ports.time + d } }) ∧
      ((s.nextReading d - s.e.tt).toNat ≤ s.c.turnaroundDelayMs.toNat →
        step s = .next { s with ports := { s.ports with ticks := ds, time := s.ports.time + d } })

/-- R28, R208: Done counts the attempt, returns to IDLE with no current Transaction, and changes nothing else. -/
def Obligations.DoneReturnsControl : Prop :=
  ∀ (s : State) (r : Nat),
    s.inPhase r .done →
    step s = .next { s with e := { s.e with dispatchCount := s.e.dispatchCount + 1#32, phase := .idle, cur := none } }

/-- R211: from retries = 0 and maxRetries = m, fewer than m consecutive failures, of any kinds, leave retries at their
number and connectionActive as it was; the m-th clears both. -/
def Obligations.ConsecutiveFailuresReachTheCeiling : Prop :=
  ∀ (s : State) (r : Nat) (kinds : List ErrorKind),
    (s.txn r).retries = 0#32 → 1 ≤ s.c.maxRetries.toNat →
    (kinds.length < s.c.maxRetries.toNat →
      ((kinds.foldl (fun s kind => takeFailure r kind s) s).txn r).retries.toNat = kinds.length ∧
        ((kinds.foldl (fun s kind => takeFailure r kind s) s).txn r).connectionActive = (s.txn r).connectionActive) ∧
      (kinds.length = s.c.maxRetries.toNat →
        ((kinds.foldl (fun s kind => takeFailure r kind s) s).txn r).retries = 0#32 ∧
          ((kinds.foldl (fun s kind => takeFailure r kind s) s).txn r).connectionActive = false)

/-! ### Host commands -/

/-- R233, R32: CONFIGURE with a baud rate opens the collaborator at that rate, 8E1, and stores every register. What is
handed to the collaborator is logged in ports.serialOut (log 21). -/
def Obligations.ConfigureStoresTheRegisters : Prop :=
  ∀ (s : State) (baud timeout delay retries count : Word) (list : Nat),
    s.e.cur = none → baud ≠ 0#32 →
    ∃ t, exec (.configure baud timeout delay retries list count) s = .next t ∧
      t.c.baudRate = baud ∧ t.c.responseTimeoutMs = timeout ∧ t.c.turnaroundDelayMs = delay ∧
      t.c.maxRetries = retries ∧ t.c.txnList = list ∧ t.c.txnCount = count ∧
      t.c.t1_5.toNat = 15000000 / baud.toNat ∧ t.c.t3_5.toNat = 35000000 / baud.toNat ∧
      t.c.framing = .eightEvenOne ∧ t.e = { s.e with configured := true } ∧
      t.ports = { s.ports with serialOut := s.ports.serialOut ++ [.opened baud .eightEvenOne] } ∧
      t.txns = s.txns ∧ t.regs = s.regs ∧ t.par = s.par ∧ t.rxDone = s.rxDone

/-- R31, R233: baudRate = 0 raises BadBaudRate; no C field is written. -/
def Obligations.ConfigureAtZeroBaudRaisesFault : Prop :=
  ∀ (s : State) (timeout delay retries count : Word) (list : Nat),
    s.e.cur = none →
    exec (.configure 0#32 timeout delay retries list count) s =
      .next { s with e := { s.e with fault := some .badBaudRate } }

/-- R234, R40, R281: CONSTRUCT with a supported function code writes every field of t, and nothing else: no entry of the
register buffer, no other Transaction, no slave id or quantity check. -/
def Obligations.ConstructInitialisesTheRecord : Prop :=
  ∀ (s : State) (k : Nat) (id f : Byte) (a q : HWord) (rb len : Nat),
    s.e.cur = none → f ∈ [0x01#8, 0x02#8, 0x03#8, 0x04#8, 0x0F#8, 0x10#8] →
    ∃ t, exec (.construct k id f a q rb len) s = .next t ∧
      t.txn k =
        { slaveId := id, functionCode := f, startAddress := a, quantity := q, rb := rb, rbLen := len,
          requestsIssued := 0#32, successfulRequests := 0#32, failedRequests := 0#32, exceptionErrors := 0#32,
          retries := 0#32, receivedCount := 0#16, connectionActive := true, constructed := true } ∧
      (∀ j, j ≠ k → t.txn j = s.txn j) ∧ t.e = s.e ∧ t.c = s.c ∧ t.regs = s.regs ∧ t.ports = s.ports ∧
      t.par = s.par ∧ t.rxDone = s.rxDone

/-- R99, R234: CONSTRUCT with any other function code raises UnsupportedFunctionCode; t is not written. -/
def Obligations.ConstructUnsupportedRaisesFault : Prop :=
  ∀ (s : State) (k : Nat) (id f : Byte) (a q : HWord) (rb len : Nat),
    s.e.cur = none → f ∉ [0x01#8, 0x02#8, 0x03#8, 0x04#8, 0x0F#8, 0x10#8] →
    exec (.construct k id f a q rb len) s = .next { s with e := { s.e with fault := some .unsupportedFunctionCode } }

/-- R200: RUN after CONFIGURE on a constructed Transaction, active or not, starts an attempt on it. The attempt goes
on in the steps that follow (log 1). -/
def Obligations.RunStartsAnAttempt : Prop :=
  ∀ (s : State) (k : Nat),
    s.e.cur = none → s.e.configured = true → (s.txn k).constructed = true →
    exec (.run k) s = .next { s with e := { s.e with cur := some k, phase := .idle, outcome := none } }

/-- R200, R29, R48: RUN before CONFIGURE raises NotConfigured; RUN on a Transaction never constructed, NotConstructed. -/
def Obligations.RunTooEarlyRaisesFault : Prop :=
  ∀ (s : State) (k : Nat),
    s.e.cur = none →
    (s.e.configured = false → exec (.run k) s = .next { s with e := { s.e with fault := some .notConfigured } }) ∧
      (s.e.configured = true → (s.txn k).constructed = false →
        exec (.run k) s = .next { s with e := { s.e with fault := some .notConstructed } })

/-- R236, 93 I-HOST: while a RUN is in progress CONFIGURE, CONSTRUCT and RUN are no moves (log 17). The refusal by
name is the model's choice, log 17. -/
def Obligations.HostOperationDuringRunIsNoMove : Prop :=
  ∀ (s : State) (r : Nat) (i : Instr),
    s.e.cur = some r → i.space = .host → (∀ bytes, i ≠ .crc bytes) → exec i s = .refused .hostBusy

/-- R47, D34: the caller's own store between RUNs changes that entry and nothing else but the input taken. Stores as
host inputs are the model's choice, log 15. -/
def Obligations.CallerStoreChangesOneEntry : Prop :=
  ∀ (s : State) (a : Nat) (v : HWord) (rest : List HostInput),
    s.e.fault = none → s.e.cur = none → s.ports.hostIn = .store a v :: rest →
    ∃ t, step s = .next t ∧ (∀ j, t.entryAt j = if j = a then v else s.entryAt j) ∧ t.e = s.e ∧ t.c = s.c ∧
      t.txns = s.txns ∧ t.ports = { s.ports with hostIn := rest }

/-! ### The whole machine -/

/-- R280: the engine after reset. Stated for every field R280 gives a value; those it leaves unspecified are logs 8
and 11. -/
def Obligations.ResetLeavesTheEngineIdle : Prop :=
  State.reset.e.phase = .idle ∧ State.reset.e.cur = none ∧ State.reset.e.txLen = 0 ∧ State.reset.e.n = 0 ∧
    State.reset.e.polls = 0 ∧ State.reset.e.ovf = false ∧ State.reset.e.outcome = none ∧
    State.reset.e.dispatchCount = 0#32 ∧ State.reset.e.configured = false ∧ State.reset.e.fault = none ∧
    State.reset.c.framing = .eightEvenOne

/-- The invariant holds after reset. -/
def Obligations.ResetMeetsTheInvariant : Prop := State.reset.Inv

/-- Every step keeps the invariant: canonical stores, counters within the capacity, the control point, a driven
Transaction constructed (R9, R20, R22, R60, R182, R200). The canonical form of the stores is the model's own. -/
def Obligations.EveryStepKeepsTheInvariant : Prop := ∀ s t : State, s.Inv → step s = .next t → t.Inv

/-- R101, R130, R251: from a state with the invariant and no fault, a step answers a next state, or it is refused
between RUNs for bytes at the host port that are no call. A step that raises a model fault is a next state with
E.fault set, and the step after it answers the fault (log 12); undecodable calls are refused (log 19). -/
def Obligations.EngineIsNeverStuck : Prop :=
  ∀ s : State, s.Inv → s.Safe →
    (∃ t, step s = .next t) ∨ (s.e.cur = none ∧ ∃ why, step s = .refused (.undecoded why))

/-- R260: a faulted state is never final; nothing clears the fault. That the step then answers the fault is the
model's form, log 12. -/
def Obligations.FaultIsFinal : Prop := ∀ (s : State) (f : Fault), s.e.fault = some f → step s = .fault f

/-- R22: the phase only moves forward, IDLE to TURNAROUND_DELAY only for a broadcast, DONE to IDLE as the call
returns. DONE as a step of its own is the model's choice, log 1. -/
def Obligations.PhaseOnlyMovesForward : Prop :=
  ∀ (s t : State) (r : Nat),
    s.e.cur = some r → step s = .next t →
    (t.e.phase = s.e.phase ∧ t.e.cur = some r) ∨
      (s.e.phase = .idle ∧ t.e.phase = .awaitingReply ∧ (s.txn r).slaveId ≠ 0#8 ∧ t.e.cur = some r) ∨
      (s.e.phase = .idle ∧ t.e.phase = .turnaroundDelay ∧ (s.txn r).slaveId = 0#8 ∧ t.e.cur = some r) ∨
      (s.e.phase = .awaitingReply ∧ t.e.phase = .turnaroundDelay ∧ t.e.cur = some r) ∨
      (s.e.phase = .turnaroundDelay ∧ t.e.phase = .done ∧ t.e.cur = some r) ∨
      (s.e.phase = .done ∧ t.e.phase = .idle ∧ t.e.cur = none)

/-- R76: a frame is sent only from IDLE, never between the start of a receive phase and the end of the turnaround. -/
def Obligations.NothingIsSentWhileAwaitingOrTurning : Prop :=
  ∀ (s t : State) (r : Nat),
    s.e.cur = some r → s.e.phase ≠ .idle → step s = .next t → t.ports.serialOut = s.ports.serialOut

/-- R41: the four monotone counters are only ever incremented, by one; only CONSTRUCT sets them, to 0. -/
def Obligations.CountersAreOnlyIncremented : Prop :=
  ∀ (s t : State) (r : Nat) (counter : Txn → Word),
    counter ∈ [Txn.requestsIssued, Txn.successfulRequests, Txn.failedRequests, Txn.exceptionErrors] →
    step s = .next t →
    counter (t.txn r) = counter (s.txn r) ∨ counter (t.txn r) = counter (s.txn r) + 1#32 ∨
      (s.takesCall 0x01#8 ∧ counter (t.txn r) = 0#32)

/-- R44: only CONSTRUCT sets connectionActive. -/
def Obligations.OnlyConstructActivatesATransaction : Prop :=
  ∀ (s t : State) (r : Nat),
    step s = .next t → (s.txn r).connectionActive = false → (t.txn r).connectionActive = true → s.takesCall 0x01#8

/-- R43: receivedCount is written only when a reply decodes successfully, with t.quantity, or by CONSTRUCT. -/
def Obligations.ReceivedCountOnlyBySuccess : Prop :=
  ∀ (s t : State) (r : Nat),
    step s = .next t → (t.txn r).receivedCount ≠ (s.txn r).receivedCount →
    (s.replyPasses r ∧ t.e.outcome = some .success ∧ (t.txn r).receivedCount = (s.txn r).quantity) ∨
      s.takesCall 0x01#8

/-- R30: the configuration registers are written only by CONFIGURE. -/
def Obligations.OnlyConfigureWritesTheConfiguration : Prop :=
  ∀ s t : State, step s = .next t → t.c ≠ s.c → s.takesCall 0x00#8

/-- R70: the bytes the collaborator holds are never flushed: a step takes the oldest answer, in the receive loop, or
none. The scripted answers are the model's form of the oracle, log 2. -/
def Obligations.SerialInputIsNeverFlushed : Prop :=
  ∀ s t : State,
    step s = .next t →
    t.ports.serialIn = s.ports.serialIn ∨
      ∃ r answer, s.receiving r ∧ s.ports.serialIn = answer :: t.ports.serialIn

/-- R232, the first law: time never runs backwards, over any step. The first law only; the unwrapped time is the
model's form, log 3. -/
def Obligations.TimeNeverRunsBackwards : Prop :=
  ∀ s t : State, step s = .next t → s.ports.time ≤ t.ports.time

/-! ### Headline results -/

/-- The words of some operations, from the spec's encodings (R99, R100, R104). The operand bytes of a host call are
the model's layout, log 6. -/
def Obligations.DecodeKnownWords : Prop :=
  decode .request [0x0F#8] = .ok .reqForceMultipleCoils ∧ decode .reply [0x04#8] = .ok .rplReadInputRegisters ∧
    decode .reply [0x83#8] = .ok (.rplException 0x83#8) ∧ decode .reply [0x05#8] = .ok (.rplUnsupported 0x05#8) ∧
    decode .host [0x02#8, 0x00#8, 0x00#8, 0x01#8, 0x02#8] = .ok (.run 258) ∧
    decode .host [0x03#8, 0x11#8, 0x03#8] = .ok (.crc [0x11#8, 0x03#8])

/-- R99, R100, R104: decoding the encoding of a well-formed operation, in its own opcode space, gives it back. The
operand bytes of a host call are the model's layout, log 6. -/
def Obligations.DecodeOfEncodeIsTheOperation : Prop :=
  ∀ i : Instr, i.wf = true → decode i.space (encode i) = .ok i

/-- R100, R101: the reply decoder is total, and its class is the one operation the byte is the encoding of. -/
def Obligations.EveryReplyByteHasOneClass : Prop :=
  ∀ f : Byte, ∃ i, decode .reply [f] = .ok i ∧ i.wf = true ∧ i.space = .reply ∧ encode i = [f] ∧
    ∀ j : Instr, j.wf = true → j.space = .reply → encode j = [f] → j = i

/-- The round trip of functions 3 and 4 (95 S3): a conforming reply that carries the values `vs`, received whole,
leaves the register buffer equal to them and receivedCount = quantity. Entry k of the register buffer stands at t.RB +
k (log 7). -/
def Obligations.RegisterReadRoundTrip : Prop :=
  ∀ (s : State) (r : Nat) (f : Byte) (vs : List HWord),
    s.loopOver r → s.e.ovf = false → (f = 0x03#8 ∨ f = 0x04#8) → (s.txn r).quantity.toNat = vs.length →
    vs.length ≤ (s.txn r).rbLen → s.par.frameCap ≤ 256 → s.e.n = 5 + 2 * vs.length → s.e.n ≤ s.par.frameCap →
    (∀ k, k < s.e.n → s.fbByte k =
      (withCrc ([(s.txn r).slaveId, f, BitVec.ofNat 8 (2 * vs.length)] ++ vs.flatMap fun v => [hi v, lo v])).getD k 0#8) →
    ∃ t, step s = .next t ∧ State.succeededByReply r s t ∧
      (∀ k, k < vs.length → t.entryAt ((s.txn r).rb + k) = vs.getD k 0#16) ∧
      (t.txn r).receivedCount.toNat = vs.length

/-- R202, R206, R208 together (95 section 1): with a timer that gains one millisecond a reading, a broadcast of any
function code whose frame and register buffer fit (R130), issued at the host port, returns after D + 4 steps for a
turnaround interval of D: sent once, counted once as a success, the register buffer and receivedCount not written,
Done. The number of steps is the model's (log 1); the timer script is the one of spec/95 section 1 (log 3). -/
def Obligations.BroadcastRunCompletes : Prop :=
  ∀ (s : State) (k d len need : Nat) (i : Instr) (record : List Byte) (rest : List HostInput) (ds : List Nat),
    s.Safe → s.e.cur = none → s.e.configured = true → (s.txn k).constructed = true → (s.txn k).slaveId = 0#8 →
    decode .request [(s.txn k).functionCode] = .ok i →
    requestShape s.par.coilRule (s.txn k).quantity.toNat i = some (len, need) →
    len ≤ s.par.frameCap → need ≤ (s.txn k).rbLen →
    decode .host record = .ok (.run k) → s.ports.hostIn = .call record :: rest →
    d = s.c.turnaroundDelayMs.toNat → d < 2 ^ 32 - 1 → s.ports.ticks = List.replicate (d + 2) 1 ++ ds →
    ∃ t, runSteps (d + 4) s = .next t ∧ t.e.cur = none ∧ t.e.phase = .idle ∧ t.Safe ∧
      t.e.dispatchCount = s.e.dispatchCount + 1#32 ∧
      (t.txn k).requestsIssued = (s.txn k).requestsIssued + 1#32 ∧
      (t.txn k).successfulRequests = (s.txn k).successfulRequests + 1#32 ∧ (t.txn k).retries = 0#32 ∧
      (t.txn k).failedRequests = (s.txn k).failedRequests ∧
      (t.txn k).receivedCount = (s.txn k).receivedCount ∧ (∀ a, t.entryAt a = s.entryAt a) ∧
      t.ports.hostIn = rest ∧ t.ports.serialIn = s.ports.serialIn ∧
      ∃ frame, frame.length = len ∧ t.ports.serialOut = s.ports.serialOut ++ [.sent frame]

/-- R181, R185, R186: a slave that stays silent is given up after the timeout T: T empty polls at one millisecond a
reading, the reading that passes the timeout, and ReceiveTooShort by the failure path. The number of steps is the
model's (log 1); the empty answers are scripted (log 2), and the timer script is the one of spec/95 section 1 (log
3). -/
def Obligations.SilentSlaveEndsInReceiveTooShort : Prop :=
  ∀ (s : State) (r T : Nat) (ds : List Nat) (rest : List (Option Byte)),
    s.receiving r → T = s.c.responseTimeoutMs.toNat → T < 2 ^ 32 - 1 → s.e.t0 = s.clock → s.e.n = 0 →
    s.e.ovf = false → s.ports.ticks = List.replicate (T + 1) 1 ++ ds →
    s.ports.serialIn = List.replicate T none ++ rest →
    ∃ t, runSteps (T + 2) s = .next t ∧ State.failedWith r .receiveTooShort s t ∧
      t.e.polls = s.e.polls + T ∧ t.e.n = 0 ∧ t.ports.serialIn = rest
end

