-- ==== Sys2Proof/Laws/Memory.lean ====
section
/-! SUPPORT. The laws of the sparse stores: a read after a write, and the canonical form, which every write keeps. -/

namespace Sys2Proof.Machine

variable {α : Type}

@[simp] theorem Cells.get_nil (d : α) (k : Nat) : Cells.get d k [] = d := rfl

/-- Entries up to `k` do not matter to a read above `k`. -/
theorem Cells.get_dropWhile (d : α) (k m : Nat) (h : k < m) (l : List (Nat × α)) :
    Cells.get d m (l.dropWhile fun c => decide (c.1 ≤ k)) = Cells.get d m l := by
  induction l with
  | nil => rfl
  | cons c rest ih =>
    obtain ⟨j, v⟩ := c
    by_cases hj : j ≤ k
    · simp [hj, ih, Cells.get, show m ≠ j by omega, show ¬ m < j by omega]
    · simp [hj]

/-- Once the entries up to `k` are dropped, nothing is listed at or below `k`. -/
theorem Cells.get_dropWhile_low (d : α) (k m : Nat) (h : m ≤ k) (l : List (Nat × α)) :
    Cells.get d m (l.dropWhile fun c => decide (c.1 ≤ k)) = d := by
  induction l with
  | nil => rfl
  | cons c rest ih =>
    obtain ⟨j, v⟩ := c
    by_cases hj : j ≤ k
    · simp [hj, ih]
    · simp [hj, Cells.get, show m ≠ j by omega, show m < j by omega]

/-- A read after a write: the value written at its key, what was there before at every other. -/
theorem Cells.get_put [DecidableEq α] (d : α) (k m : Nat) (v : α) (l : List (Nat × α)) :
    Cells.get d m (Cells.put d k v l) = if m = k then v else Cells.get d m l := by
  induction l with
  | nil => by_cases hv : v = d <;> by_cases hm : m = k <;> simp [Cells.put, Cells.get, hv, hm]
  | cons c rest ih =>
    obtain ⟨j, w⟩ := c
    simp only [Cells.put]
    split
    · split
      · rename_i hk hv
        by_cases hm : m = k
        · subst hm; simp [Cells.get, show m ≠ j by omega, hk, hv]
        · simp [hm]
      · rename_i hk hv
        by_cases hm : m = k
        · simp [Cells.get, hm]
        · by_cases hlt : m < k
          · simp [Cells.get, hm, hlt, show m ≠ j by omega, show m < j by omega]
          · simp [Cells.get, hm, hlt]
    · split
      · rename_i hk hkj
        subst hkj
        split
        · rename_i hv
          by_cases hlt : k < m
          · simp [Cells.get_dropWhile d k m hlt, Cells.get, show m ≠ k by omega, show ¬ m < k by omega]
          · by_cases hm : m = k
            · subst hm; simp [Cells.get_dropWhile_low d m m (le_refl m), hv]
            · simp [Cells.get_dropWhile_low d k m (by omega), hm, Cells.get, show m < k by omega]
        · by_cases hm : m = k <;> simp [Cells.get, hm]
      · rename_i hk hkj
        by_cases hmj : m = j
        · simp [Cells.get, hmj, show j ≠ k by omega]
        · by_cases hlt : m < j
          · simp [Cells.get, hmj, hlt, show m ≠ k by omega]
          · simp [Cells.get, hmj, hlt, ih]

@[simp] theorem Cells.get_put_same [DecidableEq α] (d : α) (k : Nat) (v : α) (l : List (Nat × α)) :
    Cells.get d k (Cells.put d k v l) = v := by
  simp [Cells.get_put]

theorem Cells.get_put_other [DecidableEq α] (d : α) (k m : Nat) (h : m ≠ k) (v : α) (l : List (Nat × α)) :
    Cells.get d m (Cells.put d k v l) = Cells.get d m l := by
  simp [Cells.get_put, h]

theorem Cells.above_put [DecidableEq α] (d : α) (i k : Nat) (v : α) (l : List (Nat × α)) (hik : i < k)
    (h : Cells.above i l = true) (hwf : Cells.wf d l = true) : Cells.above i (Cells.put d k v l) = true := by
  cases l with
  | nil => by_cases hv : v = d <;> simp [Cells.put, Cells.above, hv, hik]
  | cons c rest =>
    obtain ⟨j, w⟩ := c
    simp only [Cells.above, decide_eq_true_eq] at h
    simp only [Cells.put]
    split
    · split <;> simp [Cells.above, hik, h]
    · split
      · rename_i hkj
        subst hkj
        split
        · cases rest with
          | nil => rfl
          | cons c' rest' =>
            obtain ⟨j', w'⟩ := c'
            have habove : k < j' := by
              have := hwf
              simp only [Cells.wf, Cells.above, Bool.and_eq_true, decide_eq_true_eq] at this
              exact this.1.2
            simp [show ¬ j' ≤ k by omega, Cells.above]
            omega
        · simp [Cells.above, hik]
      · simp [Cells.above, h]

/-- Every write keeps the canonical form. -/
theorem Cells.wf_put [DecidableEq α] (d : α) (k : Nat) (v : α) (l : List (Nat × α)) (h : Cells.wf d l = true) :
    Cells.wf d (Cells.put d k v l) = true := by
  induction l with
  | nil => by_cases hv : v = d <;> simp [Cells.put, Cells.wf, Cells.above, hv]
  | cons c rest ih =>
    obtain ⟨j, w⟩ := c
    have h0 := h
    simp only [Cells.wf, Bool.and_eq_true, decide_eq_true_eq] at h
    obtain ⟨⟨hw, ha⟩, hr⟩ := h
    simp only [Cells.put]
    split
    · split
      · exact h0
      · rename_i hk hv
        have : Cells.above k ((j, w) :: rest) = true := by simp [Cells.above, hk]
        simp [Cells.wf, this, hv, hw, ha, hr]
    · split
      · rename_i hkj
        subst hkj
        split
        · cases rest with
          | nil => rfl
          | cons c' rest' =>
            obtain ⟨j', w'⟩ := c'
            simp only [Cells.above, decide_eq_true_eq] at ha
            simpa [List.dropWhile_cons, show ¬ j' ≤ k by omega] using hr
        · rename_i hv
          simp [Cells.wf, hv, ha, hr]
      · rename_i hk hkj
        simp [Cells.wf, hw, ih hr, Cells.above_put d j k v rest (by omega) ha hr]

/-- Below the first entry everything reads as unlisted. -/
theorem Cells.get_of_above [DecidableEq α] (d : α) (k m : Nat) (l : List (Nat × α)) (ha : Cells.above k l = true)
    (hm : m ≤ k) : Cells.get d m l = d := by
  cases l with
  | nil => rfl
  | cons c rest =>
    obtain ⟨j, v⟩ := c
    simp only [Cells.above, decide_eq_true_eq] at ha
    simp [Cells.get, show m ≠ j by omega, show m < j by omega]

/-- A key that is listed after a write was listed before, or is the key written. -/
theorem Cells.mem_put [DecidableEq α] (d : α) (k : Nat) (v : α) (l : List (Nat × α)) (c : Nat × α)
    (h : c ∈ Cells.put d k v l) : c = (k, v) ∨ c ∈ l := by
  induction l with
  | nil =>
    by_cases hv : v = d
    · simp [Cells.put, hv] at h
    · simpa [Cells.put, hv] using h
  | cons c' rest ih =>
    obtain ⟨j, w⟩ := c'
    simp only [Cells.put] at h
    split at h
    · split at h
      · exact .inr h
      · simpa using h
    · split at h
      · split at h
        · exact .inr (List.mem_cons_of_mem _ ((List.dropWhile_sublist _).mem h))
        · rcases List.mem_cons.mp h with h | h
          · exact .inl h
          · exact .inr (List.mem_cons_of_mem _ h)
      · rcases List.mem_cons.mp h with h | h
        · exact .inr (by simp [h])
        · rcases ih h with h | h
          · exact .inl h
          · exact .inr (List.mem_cons_of_mem _ h)

/-- What a read gives is the default or the value of a listed entry. -/
theorem Cells.get_mem (d : α) (k : Nat) (l : List (Nat × α)) : Cells.get d k l = d ∨ (k, Cells.get d k l) ∈ l := by
  induction l with
  | nil => exact .inl rfl
  | cons c rest ih =>
    obtain ⟨j, v⟩ := c
    simp only [Cells.get]
    split
    · rename_i hj; subst hj; simp
    · split
      · exact .inl rfl
      · rcases ih with h | h
        · exact .inl h
        · exact .inr (List.mem_cons_of_mem _ h)

end Sys2Proof.Machine
end

