-- ==== Sys2Proof/Laws/State.lean ====
section
/-! SUPPORT. One lemma per field per update, true by rfl: later proofs rewrite with these and never unfold an update. -/

namespace Sys2Proof.Machine

variable (s : State)

/-! ### A byte of the frame buffer -/

@[simp] theorem State.setFbByte_par (i : Nat) (b : Byte) : (s.setFbByte i b).par = s.par := rfl
@[simp] theorem State.setFbByte_c (i : Nat) (b : Byte) : (s.setFbByte i b).c = s.c := rfl
@[simp] theorem State.setFbByte_txns (i : Nat) (b : Byte) : (s.setFbByte i b).txns = s.txns := rfl
@[simp] theorem State.setFbByte_regs (i : Nat) (b : Byte) : (s.setFbByte i b).regs = s.regs := rfl
@[simp] theorem State.setFbByte_ports (i : Nat) (b : Byte) : (s.setFbByte i b).ports = s.ports := rfl
@[simp] theorem State.setFbByte_rxDone (i : Nat) (b : Byte) : (s.setFbByte i b).rxDone = s.rxDone := rfl

@[simp] theorem State.setFbByte_phase (i : Nat) (b : Byte) : (s.setFbByte i b).e.phase = s.e.phase := rfl
@[simp] theorem State.setFbByte_cur (i : Nat) (b : Byte) : (s.setFbByte i b).e.cur = s.e.cur := rfl
@[simp] theorem State.setFbByte_txLen (i : Nat) (b : Byte) : (s.setFbByte i b).e.txLen = s.e.txLen := rfl
@[simp] theorem State.setFbByte_n (i : Nat) (b : Byte) : (s.setFbByte i b).e.n = s.e.n := rfl
@[simp] theorem State.setFbByte_ovf (i : Nat) (b : Byte) : (s.setFbByte i b).e.ovf = s.e.ovf := rfl
@[simp] theorem State.setFbByte_polls (i : Nat) (b : Byte) : (s.setFbByte i b).e.polls = s.e.polls := rfl
@[simp] theorem State.setFbByte_t0 (i : Nat) (b : Byte) : (s.setFbByte i b).e.t0 = s.e.t0 := rfl
@[simp] theorem State.setFbByte_tt (i : Nat) (b : Byte) : (s.setFbByte i b).e.tt = s.e.tt := rfl
@[simp] theorem State.setFbByte_outcome (i : Nat) (b : Byte) : (s.setFbByte i b).e.outcome = s.e.outcome := rfl
@[simp] theorem State.setFbByte_dispatchCount (i : Nat) (b : Byte) : (s.setFbByte i b).e.dispatchCount = s.e.dispatchCount := rfl
@[simp] theorem State.setFbByte_configured (i : Nat) (b : Byte) : (s.setFbByte i b).e.configured = s.e.configured := rfl
@[simp] theorem State.setFbByte_fault (i : Nat) (b : Byte) : (s.setFbByte i b).e.fault = s.e.fault := rfl
@[simp] theorem State.setFbByte_txn (i : Nat) (b : Byte) (j : Nat) : (s.setFbByte i b).txn j = s.txn j := rfl
@[simp] theorem State.setFbByte_entryAt (i : Nat) (b : Byte) (j : Nat) : (s.setFbByte i b).entryAt j = s.entryAt j := rfl
@[simp] theorem State.setFbByte_clock (i : Nat) (b : Byte) : (s.setFbByte i b).clock = s.clock := rfl

theorem State.setFbByte_fbByte (i j : Nat) (b : Byte) :
    (s.setFbByte i b).fbByte j = if j = i then b else s.fbByte j := Cells.get_put _ _ _ _ _

/-! ### A register-buffer entry -/

@[simp] theorem State.setEntryAt_par (a : Nat) (v : HWord) : (s.setEntryAt a v).par = s.par := rfl
@[simp] theorem State.setEntryAt_e (a : Nat) (v : HWord) : (s.setEntryAt a v).e = s.e := rfl
@[simp] theorem State.setEntryAt_c (a : Nat) (v : HWord) : (s.setEntryAt a v).c = s.c := rfl
@[simp] theorem State.setEntryAt_txns (a : Nat) (v : HWord) : (s.setEntryAt a v).txns = s.txns := rfl
@[simp] theorem State.setEntryAt_ports (a : Nat) (v : HWord) : (s.setEntryAt a v).ports = s.ports := rfl
@[simp] theorem State.setEntryAt_rxDone (a : Nat) (v : HWord) : (s.setEntryAt a v).rxDone = s.rxDone := rfl

@[simp] theorem State.setEntryAt_fbByte (a : Nat) (v : HWord) (j : Nat) : (s.setEntryAt a v).fbByte j = s.fbByte j := rfl
@[simp] theorem State.setEntryAt_txn (a : Nat) (v : HWord) (j : Nat) : (s.setEntryAt a v).txn j = s.txn j := rfl
@[simp] theorem State.setEntryAt_clock (a : Nat) (v : HWord) : (s.setEntryAt a v).clock = s.clock := rfl

theorem State.setEntryAt_entryAt (a j : Nat) (v : HWord) :
    (s.setEntryAt a v).entryAt j = if j = a then v else s.entryAt j := Cells.get_put _ _ _ _ _

/-! ### A Transaction record -/

@[simp] theorem State.setTxn_par (r : Nat) (t : Txn) : (s.setTxn r t).par = s.par := rfl
@[simp] theorem State.setTxn_e (r : Nat) (t : Txn) : (s.setTxn r t).e = s.e := rfl
@[simp] theorem State.setTxn_c (r : Nat) (t : Txn) : (s.setTxn r t).c = s.c := rfl
@[simp] theorem State.setTxn_regs (r : Nat) (t : Txn) : (s.setTxn r t).regs = s.regs := rfl
@[simp] theorem State.setTxn_ports (r : Nat) (t : Txn) : (s.setTxn r t).ports = s.ports := rfl
@[simp] theorem State.setTxn_rxDone (r : Nat) (t : Txn) : (s.setTxn r t).rxDone = s.rxDone := rfl

@[simp] theorem State.setTxn_fbByte (r : Nat) (t : Txn) (j : Nat) : (s.setTxn r t).fbByte j = s.fbByte j := rfl
@[simp] theorem State.setTxn_entryAt (r : Nat) (t : Txn) (j : Nat) : (s.setTxn r t).entryAt j = s.entryAt j := rfl
@[simp] theorem State.setTxn_clock (r : Nat) (t : Txn) : (s.setTxn r t).clock = s.clock := rfl

theorem State.setTxn_txn (r k : Nat) (t : Txn) : (s.setTxn r t).txn k = if k = r then t else s.txn k :=
  Cells.get_put _ _ _ _ _

/-! ### A Transaction record, changed in place -/

@[simp] theorem State.modifyTxn_par (r : Nat) (g : Txn → Txn) : (s.modifyTxn r g).par = s.par := rfl
@[simp] theorem State.modifyTxn_e (r : Nat) (g : Txn → Txn) : (s.modifyTxn r g).e = s.e := rfl
@[simp] theorem State.modifyTxn_c (r : Nat) (g : Txn → Txn) : (s.modifyTxn r g).c = s.c := rfl
@[simp] theorem State.modifyTxn_regs (r : Nat) (g : Txn → Txn) : (s.modifyTxn r g).regs = s.regs := rfl
@[simp] theorem State.modifyTxn_ports (r : Nat) (g : Txn → Txn) : (s.modifyTxn r g).ports = s.ports := rfl
@[simp] theorem State.modifyTxn_rxDone (r : Nat) (g : Txn → Txn) : (s.modifyTxn r g).rxDone = s.rxDone := rfl

@[simp] theorem State.modifyTxn_fbByte (r : Nat) (g : Txn → Txn) (j : Nat) : (s.modifyTxn r g).fbByte j = s.fbByte j := rfl
@[simp] theorem State.modifyTxn_entryAt (r : Nat) (g : Txn → Txn) (j : Nat) : (s.modifyTxn r g).entryAt j = s.entryAt j := rfl
@[simp] theorem State.modifyTxn_clock (r : Nat) (g : Txn → Txn) : (s.modifyTxn r g).clock = s.clock := rfl

theorem State.modifyTxn_txn (r k : Nat) (g : Txn → Txn) :
    (s.modifyTxn r g).txn k = if k = r then g (s.txn r) else s.txn k := Cells.get_put _ _ _ _ _

@[simp] theorem State.modifyTxn_txn_same (r : Nat) (g : Txn → Txn) : (s.modifyTxn r g).txn r = g (s.txn r) := by
  simp [State.modifyTxn_txn]

theorem State.modifyTxn_txn_other (r k : Nat) (h : k ≠ r) (g : Txn → Txn) : (s.modifyTxn r g).txn k = s.txn k := by
  simp [State.modifyTxn_txn, h]

/-! ### The timer -/

@[simp] theorem State.readTimer_par  : (s.readTimer).par = s.par := rfl
@[simp] theorem State.readTimer_e  : (s.readTimer).e = s.e := rfl
@[simp] theorem State.readTimer_c  : (s.readTimer).c = s.c := rfl
@[simp] theorem State.readTimer_txns  : (s.readTimer).txns = s.txns := rfl
@[simp] theorem State.readTimer_regs  : (s.readTimer).regs = s.regs := rfl
@[simp] theorem State.readTimer_rxDone  : (s.readTimer).rxDone = s.rxDone := rfl

@[simp] theorem State.readTimer_fbByte  (j : Nat) : (s.readTimer).fbByte j = s.fbByte j := rfl
@[simp] theorem State.readTimer_txn  (j : Nat) : (s.readTimer).txn j = s.txn j := rfl
@[simp] theorem State.readTimer_entryAt  (j : Nat) : (s.readTimer).entryAt j = s.entryAt j := rfl

/-! ### A poll -/

@[simp] theorem State.polled_par  : (s.polled).par = s.par := rfl
@[simp] theorem State.polled_e  : (s.polled).e = s.e := rfl
@[simp] theorem State.polled_c  : (s.polled).c = s.c := rfl
@[simp] theorem State.polled_txns  : (s.polled).txns = s.txns := rfl
@[simp] theorem State.polled_regs  : (s.polled).regs = s.regs := rfl
@[simp] theorem State.polled_rxDone  : (s.polled).rxDone = s.rxDone := rfl

@[simp] theorem State.polled_fbByte  (j : Nat) : (s.polled).fbByte j = s.fbByte j := rfl
@[simp] theorem State.polled_txn  (j : Nat) : (s.polled).txn j = s.txn j := rfl
@[simp] theorem State.polled_entryAt  (j : Nat) : (s.polled).entryAt j = s.entryAt j := rfl

/-! ### A draw -/

@[simp] theorem State.drawn_par  : (s.drawn).par = s.par := rfl
@[simp] theorem State.drawn_e  : (s.drawn).e = s.e := rfl
@[simp] theorem State.drawn_c  : (s.drawn).c = s.c := rfl
@[simp] theorem State.drawn_txns  : (s.drawn).txns = s.txns := rfl
@[simp] theorem State.drawn_regs  : (s.drawn).regs = s.regs := rfl
@[simp] theorem State.drawn_rxDone  : (s.drawn).rxDone = s.rxDone := rfl

@[simp] theorem State.drawn_fbByte  (j : Nat) : (s.drawn).fbByte j = s.fbByte j := rfl
@[simp] theorem State.drawn_txn  (j : Nat) : (s.drawn).txn j = s.txn j := rfl
@[simp] theorem State.drawn_entryAt  (j : Nat) : (s.drawn).entryAt j = s.entryAt j := rfl

/-! ### Output to the collaborator -/

@[simp] theorem State.serialWrite_par (o : SerialOut) : (s.serialWrite o).par = s.par := rfl
@[simp] theorem State.serialWrite_e (o : SerialOut) : (s.serialWrite o).e = s.e := rfl
@[simp] theorem State.serialWrite_c (o : SerialOut) : (s.serialWrite o).c = s.c := rfl
@[simp] theorem State.serialWrite_txns (o : SerialOut) : (s.serialWrite o).txns = s.txns := rfl
@[simp] theorem State.serialWrite_regs (o : SerialOut) : (s.serialWrite o).regs = s.regs := rfl
@[simp] theorem State.serialWrite_rxDone (o : SerialOut) : (s.serialWrite o).rxDone = s.rxDone := rfl

@[simp] theorem State.serialWrite_fbByte (o : SerialOut) (j : Nat) : (s.serialWrite o).fbByte j = s.fbByte j := rfl
@[simp] theorem State.serialWrite_txn (o : SerialOut) (j : Nat) : (s.serialWrite o).txn j = s.txn j := rfl
@[simp] theorem State.serialWrite_entryAt (o : SerialOut) (j : Nat) : (s.serialWrite o).entryAt j = s.entryAt j := rfl
@[simp] theorem State.serialWrite_clock (o : SerialOut) : (s.serialWrite o).clock = s.clock := rfl

/-! ### A frame sent -/

@[simp] theorem State.serialSend_par (b : List Byte) : (s.serialSend b).par = s.par := rfl
@[simp] theorem State.serialSend_e (b : List Byte) : (s.serialSend b).e = s.e := rfl
@[simp] theorem State.serialSend_c (b : List Byte) : (s.serialSend b).c = s.c := rfl
@[simp] theorem State.serialSend_txns (b : List Byte) : (s.serialSend b).txns = s.txns := rfl
@[simp] theorem State.serialSend_regs (b : List Byte) : (s.serialSend b).regs = s.regs := rfl
@[simp] theorem State.serialSend_rxDone (b : List Byte) : (s.serialSend b).rxDone = s.rxDone := rfl

@[simp] theorem State.serialSend_fbByte (b : List Byte) (j : Nat) : (s.serialSend b).fbByte j = s.fbByte j := rfl
@[simp] theorem State.serialSend_txn (b : List Byte) (j : Nat) : (s.serialSend b).txn j = s.txn j := rfl
@[simp] theorem State.serialSend_entryAt (b : List Byte) (j : Nat) : (s.serialSend b).entryAt j = s.entryAt j := rfl
@[simp] theorem State.serialSend_clock (b : List Byte) : (s.serialSend b).clock = s.clock := rfl

/-! ### A model fault -/

@[simp] theorem State.raised_par (f : Fault) : (s.raised f).par = s.par := rfl
@[simp] theorem State.raised_c (f : Fault) : (s.raised f).c = s.c := rfl
@[simp] theorem State.raised_txns (f : Fault) : (s.raised f).txns = s.txns := rfl
@[simp] theorem State.raised_regs (f : Fault) : (s.raised f).regs = s.regs := rfl
@[simp] theorem State.raised_ports (f : Fault) : (s.raised f).ports = s.ports := rfl
@[simp] theorem State.raised_rxDone (f : Fault) : (s.raised f).rxDone = s.rxDone := rfl

@[simp] theorem State.raised_phase (f : Fault) : (s.raised f).e.phase = s.e.phase := rfl
@[simp] theorem State.raised_cur (f : Fault) : (s.raised f).e.cur = s.e.cur := rfl
@[simp] theorem State.raised_txLen (f : Fault) : (s.raised f).e.txLen = s.e.txLen := rfl
@[simp] theorem State.raised_n (f : Fault) : (s.raised f).e.n = s.e.n := rfl
@[simp] theorem State.raised_ovf (f : Fault) : (s.raised f).e.ovf = s.e.ovf := rfl
@[simp] theorem State.raised_polls (f : Fault) : (s.raised f).e.polls = s.e.polls := rfl
@[simp] theorem State.raised_t0 (f : Fault) : (s.raised f).e.t0 = s.e.t0 := rfl
@[simp] theorem State.raised_tt (f : Fault) : (s.raised f).e.tt = s.e.tt := rfl
@[simp] theorem State.raised_outcome (f : Fault) : (s.raised f).e.outcome = s.e.outcome := rfl
@[simp] theorem State.raised_dispatchCount (f : Fault) : (s.raised f).e.dispatchCount = s.e.dispatchCount := rfl
@[simp] theorem State.raised_configured (f : Fault) : (s.raised f).e.configured = s.e.configured := rfl
@[simp] theorem State.raised_fault (f : Fault) : (s.raised f).e.fault = some f := rfl
@[simp] theorem State.raised_fb (f : Fault) : (s.raised f).e.fb = s.e.fb := rfl
@[simp] theorem State.raised_fbByte (f : Fault) (j : Nat) : (s.raised f).fbByte j = s.fbByte j := rfl
@[simp] theorem State.raised_txn (f : Fault) (j : Nat) : (s.raised f).txn j = s.txn j := rfl
@[simp] theorem State.raised_entryAt (f : Fault) (j : Nat) : (s.raised f).entryAt j = s.entryAt j := rfl
@[simp] theorem State.raised_clock (f : Fault) : (s.raised f).clock = s.clock := rfl

/-! ### The ports -/

@[simp] theorem State.readTimer_ports : s.readTimer.ports = s.ports.passTime := rfl
@[simp] theorem State.polled_ports : s.polled.ports = s.ports.takePoll := rfl
@[simp] theorem State.drawn_ports : s.drawn.ports = s.ports.useFree := rfl
@[simp] theorem State.serialWrite_serialOut (o : SerialOut) : (s.serialWrite o).ports.serialOut = s.ports.serialOut ++ [o] := rfl
@[simp] theorem State.serialSend_serialOut (b : List Byte) : (s.serialSend b).ports.serialOut = s.ports.serialOut ++ [.sent b] := rfl
@[simp] theorem State.serialWrite_hostIn (o : SerialOut) : (s.serialWrite o).ports.hostIn = s.ports.hostIn := rfl
@[simp] theorem State.serialSend_hostIn (b : List Byte) : (s.serialSend b).ports.hostIn = s.ports.hostIn := rfl
@[simp] theorem State.serialWrite_hostOut (o : SerialOut) : (s.serialWrite o).ports.hostOut = s.ports.hostOut := rfl
@[simp] theorem State.serialSend_hostOut (b : List Byte) : (s.serialSend b).ports.hostOut = s.ports.hostOut := rfl
@[simp] theorem State.serialWrite_serialIn (o : SerialOut) : (s.serialWrite o).ports.serialIn = s.ports.serialIn := rfl
@[simp] theorem State.serialSend_serialIn (b : List Byte) : (s.serialSend b).ports.serialIn = s.ports.serialIn := rfl
@[simp] theorem State.serialWrite_ticks (o : SerialOut) : (s.serialWrite o).ports.ticks = s.ports.ticks := rfl
@[simp] theorem State.serialSend_ticks (b : List Byte) : (s.serialSend b).ports.ticks = s.ports.ticks := rfl
@[simp] theorem State.serialWrite_time (o : SerialOut) : (s.serialWrite o).ports.time = s.ports.time := rfl
@[simp] theorem State.serialSend_time (b : List Byte) : (s.serialSend b).ports.time = s.ports.time := rfl
@[simp] theorem State.serialWrite_freeUsed (o : SerialOut) : (s.serialWrite o).ports.freeUsed = s.ports.freeUsed := rfl
@[simp] theorem State.serialSend_freeUsed (b : List Byte) : (s.serialSend b).ports.freeUsed = s.ports.freeUsed := rfl

@[simp] theorem Ports.passTime_hostIn (p : Ports) : p.passTime.hostIn = p.hostIn := by
  unfold Ports.passTime; split <;> rfl
@[simp] theorem Ports.passTime_hostOut (p : Ports) : p.passTime.hostOut = p.hostOut := by
  unfold Ports.passTime; split <;> rfl
@[simp] theorem Ports.passTime_serialIn (p : Ports) : p.passTime.serialIn = p.serialIn := by
  unfold Ports.passTime; split <;> rfl
@[simp] theorem Ports.passTime_serialOut (p : Ports) : p.passTime.serialOut = p.serialOut := by
  unfold Ports.passTime; split <;> rfl

@[simp] theorem Ports.takePoll_hostIn (p : Ports) : p.takePoll.hostIn = p.hostIn := by
  unfold Ports.takePoll; split <;> rfl
@[simp] theorem Ports.takePoll_hostOut (p : Ports) : p.takePoll.hostOut = p.hostOut := by
  unfold Ports.takePoll; split <;> rfl
@[simp] theorem Ports.takePoll_serialOut (p : Ports) : p.takePoll.serialOut = p.serialOut := by
  unfold Ports.takePoll; split <;> rfl
@[simp] theorem Ports.takePoll_ticks (p : Ports) : p.takePoll.ticks = p.ticks := by
  unfold Ports.takePoll; split <;> rfl
@[simp] theorem Ports.takePoll_time (p : Ports) : p.takePoll.time = p.time := by
  unfold Ports.takePoll; split <;> rfl

@[simp] theorem Ports.useFree_hostIn (p : Ports) : p.useFree.hostIn = p.hostIn := rfl
@[simp] theorem Ports.useFree_hostOut (p : Ports) : p.useFree.hostOut = p.hostOut := rfl
@[simp] theorem Ports.useFree_serialIn (p : Ports) : p.useFree.serialIn = p.serialIn := rfl
@[simp] theorem Ports.useFree_serialOut (p : Ports) : p.useFree.serialOut = p.serialOut := rfl
@[simp] theorem Ports.useFree_ticks (p : Ports) : p.useFree.ticks = p.ticks := rfl
@[simp] theorem Ports.useFree_time (p : Ports) : p.useFree.time = p.time := rfl

/-- Time never runs backwards (R232, the first law). -/
theorem Ports.passTime_time_le (p : Ports) : p.time ≤ p.passTime.time := by
  unfold Ports.passTime; split <;> simp

/-- A scripted passage of time. -/
theorem Ports.passTime_cons (p : Ports) (d : Nat) (rest : List Nat) (h : p.ticks = d :: rest) :
    p.passTime = { p with ticks := rest, time := p.time + d } := by
  simp [Ports.passTime, h]

/-- A poll takes at most one answer, the oldest (R70). -/
theorem Ports.takePoll_serialIn (p : Ports) :
    p.takePoll.serialIn = p.serialIn ∨ ∃ a, p.serialIn = a :: p.takePoll.serialIn := by
  unfold Ports.takePoll; split
  · rename_i a rest h; exact .inr ⟨a, by simp [h]⟩
  · exact .inl rfl

end Sys2Proof.Machine
end

