-- ==== Sys2Proof/Laws/HostCommands.lean ====
section
/-! SUPPORT. What each host command answers, between RUNs and during one. -/

namespace Sys2Proof.Machine

theorem whenNoRun_free {s : State} {k : Answer} (h : s.e.cur = none) : whenNoRun s k = k := by simp [whenNoRun, h]

theorem whenNoRun_busy {s : State} {k : Answer} {r : Nat} (h : s.e.cur = some r) : whenNoRun s k = .refused .hostBusy := by
  simp [whenNoRun, h]

/-- CONFIGURE between RUNs (R233). -/
theorem exec_configure {s : State} {baud timeout delay retries count : Word} {list : Nat} (h : s.e.cur = none) :
    exec (.configure baud timeout delay retries list count) s =
      .next (if baud = 0#32 then s.raised .badBaudRate
        else { s.serialWrite (.opened baud .eightEvenOne) with
               c := configured baud timeout delay retries list count, e := { s.e with configured := true } }) := by
  refine (whenNoRun_free h).trans ?_
  by_cases hb : baud = 0#32
  · rw [if_pos hb, if_pos hb]
  · rw [if_neg hb, if_neg hb]

/-- CONSTRUCT between RUNs (R234). -/
theorem exec_construct {s : State} {k rb len : Nat} {id f : Byte} {a q : HWord} (h : s.e.cur = none) :
    exec (.construct k id f a q rb len) s =
      .next (if isSupportedFunction f = true then s.setTxn k (constructedTxn id f a q rb len)
        else s.raised .unsupportedFunctionCode) := by
  refine (whenNoRun_free h).trans ?_
  by_cases hf : isSupportedFunction f = true
  · rw [if_pos hf, if_pos hf]
  · rw [if_neg hf, if_neg hf]

/-- RUN between RUNs (R200). -/
theorem exec_run {s : State} {k : Nat} (h : s.e.cur = none) :
    exec (.run k) s =
      .next (if s.e.configured = false then s.raised .notConfigured
        else if (s.txn k).constructed = false then s.raised .notConstructed
        else { s with e := { s.e with cur := some k, phase := .idle, outcome := none } }) := by
  refine (whenNoRun_free h).trans ?_
  by_cases h1 : s.e.configured = false
  · rw [if_pos h1, if_pos h1]
  · rw [if_neg h1, if_neg h1]
    by_cases h2 : (s.txn k).constructed = false
    · rw [if_pos h2, if_pos h2]
    · rw [if_neg h2, if_neg h2]

/-- CRC, at any time (R121). -/
theorem exec_crc (bytes : List Byte) (s : State) :
    exec (.crc bytes) s = .next { s with ports := { s.ports with hostOut := some (crc16 bytes) } } := rfl

theorem isSupportedFunction_iff (f : Byte) :
    isSupportedFunction f = true ↔ f ∈ [0x01#8, 0x02#8, 0x03#8, 0x04#8, 0x0F#8, 0x10#8] := by
  simp [isSupportedFunction, or_assoc]

end Sys2Proof.Machine
end

