-- ==== Sys2Proof/Laws/Ops.lean ====
section
/-! SUPPORT. For each shared operation, once, everything it can do. -/

namespace Sys2Proof.Machine

/-! ### Writing the frame buffer -/

@[simp] theorem State.writeFb_par (i : Nat) (bs : List Byte) (s : State) : (s.writeFb i bs).par = s.par := by
  induction bs generalizing i s <;> simp_all [State.writeFb]

@[simp] theorem State.writeFb_c (i : Nat) (bs : List Byte) (s : State) : (s.writeFb i bs).c = s.c := by
  induction bs generalizing i s <;> simp_all [State.writeFb]

@[simp] theorem State.writeFb_txns (i : Nat) (bs : List Byte) (s : State) : (s.writeFb i bs).txns = s.txns := by
  induction bs generalizing i s <;> simp_all [State.writeFb]

@[simp] theorem State.writeFb_regs (i : Nat) (bs : List Byte) (s : State) : (s.writeFb i bs).regs = s.regs := by
  induction bs generalizing i s <;> simp_all [State.writeFb]

@[simp] theorem State.writeFb_ports (i : Nat) (bs : List Byte) (s : State) : (s.writeFb i bs).ports = s.ports := by
  induction bs generalizing i s <;> simp_all [State.writeFb]

@[simp] theorem State.writeFb_rxDone (i : Nat) (bs : List Byte) (s : State) : (s.writeFb i bs).rxDone = s.rxDone := by
  induction bs generalizing i s <;> simp_all [State.writeFb]

/-- Writing the frame buffer changes nothing else of the engine. -/
theorem State.writeFb_e (i : Nat) (bs : List Byte) (s : State) :
    (s.writeFb i bs).e = { s.e with fb := (s.writeFb i bs).e.fb } := by
  induction bs generalizing i s with
  | nil => rfl
  | cons b bs ih => rw [State.writeFb, ih]; rfl

@[simp] theorem State.writeFb_phase (i : Nat) (bs : List Byte) (s : State) : (s.writeFb i bs).e.phase = s.e.phase := by
  rw [State.writeFb_e]

@[simp] theorem State.writeFb_cur (i : Nat) (bs : List Byte) (s : State) : (s.writeFb i bs).e.cur = s.e.cur := by
  rw [State.writeFb_e]

@[simp] theorem State.writeFb_n (i : Nat) (bs : List Byte) (s : State) : (s.writeFb i bs).e.n = s.e.n := by
  rw [State.writeFb_e]

@[simp] theorem State.writeFb_ovf (i : Nat) (bs : List Byte) (s : State) : (s.writeFb i bs).e.ovf = s.e.ovf := by
  rw [State.writeFb_e]

@[simp] theorem State.writeFb_polls (i : Nat) (bs : List Byte) (s : State) : (s.writeFb i bs).e.polls = s.e.polls := by
  rw [State.writeFb_e]

@[simp] theorem State.writeFb_t0 (i : Nat) (bs : List Byte) (s : State) : (s.writeFb i bs).e.t0 = s.e.t0 := by
  rw [State.writeFb_e]

@[simp] theorem State.writeFb_tt (i : Nat) (bs : List Byte) (s : State) : (s.writeFb i bs).e.tt = s.e.tt := by
  rw [State.writeFb_e]

@[simp] theorem State.writeFb_outcome (i : Nat) (bs : List Byte) (s : State) : (s.writeFb i bs).e.outcome = s.e.outcome := by
  rw [State.writeFb_e]

@[simp] theorem State.writeFb_dispatchCount (i : Nat) (bs : List Byte) (s : State) : (s.writeFb i bs).e.dispatchCount = s.e.dispatchCount := by
  rw [State.writeFb_e]

@[simp] theorem State.writeFb_configured (i : Nat) (bs : List Byte) (s : State) : (s.writeFb i bs).e.configured = s.e.configured := by
  rw [State.writeFb_e]

@[simp] theorem State.writeFb_fault (i : Nat) (bs : List Byte) (s : State) : (s.writeFb i bs).e.fault = s.e.fault := by
  rw [State.writeFb_e]

@[simp] theorem State.writeFb_txLen (i : Nat) (bs : List Byte) (s : State) : (s.writeFb i bs).e.txLen = s.e.txLen := by
  rw [State.writeFb_e]

@[simp] theorem State.writeFb_txn (i k : Nat) (bs : List Byte) (s : State) : (s.writeFb i bs).txn k = s.txn k := by
  simp [State.txn]

@[simp] theorem State.writeFb_entryAt (i k : Nat) (bs : List Byte) (s : State) :
    (s.writeFb i bs).entryAt k = s.entryAt k := by
  simp [State.entryAt]

/-- Reading back what was written; every other byte is as before. -/
theorem State.writeFb_fbByte (i k : Nat) (bs : List Byte) (s : State) :
    (s.writeFb i bs).fbByte k =
      if i ≤ k ∧ k < i + bs.length then bs.getD (k - i) 0#8 else s.fbByte k := by
  induction bs generalizing i s with
  | nil => simp [State.writeFb, show ¬ (i ≤ k ∧ k < i) by omega]
  | cons b bs ih =>
    rw [State.writeFb, ih, State.setFbByte_fbByte]
    by_cases h0 : k = i
    · subst h0; simp
    · by_cases h1 : i + 1 ≤ k ∧ k < i + 1 + bs.length
      · have h2 : i ≤ k ∧ k < i + (bs.length + 1) := by omega
        have h3 : k - i = (k - (i + 1)) + 1 := by omega
        simp [h1, h2, h3]
      · have h2 : ¬ (i ≤ k ∧ k < i + (bs.length + 1)) := by omega
        rw [if_neg h1, if_neg h0, if_neg (by simpa only [List.length_cons] using h2)]

/-- A slice just written reads back whole. -/
theorem State.fbSlice_writeFb (i : Nat) (bs : List Byte) (s : State) :
    (s.writeFb i bs).fbSlice i bs.length = bs := by
  apply List.ext_getElem
  · simp [State.fbSlice]
  · intro k h1 h2
    simp [State.fbSlice, State.writeFb_fbByte, h2]

/-- Keys of the frame buffer after a write lie within a bound that holds the write. -/
theorem State.writeFb_bounded (i cap : Nat) (bs : List Byte) (s : State) (h : ∀ c ∈ s.e.fb, c.1 < cap)
    (hb : i + bs.length ≤ cap) : ∀ c ∈ (s.writeFb i bs).e.fb, c.1 < cap := by
  induction bs generalizing i s with
  | nil => exact h
  | cons b bs ih =>
    simp only [List.length_cons] at hb
    refine ih (i + 1) (s.setFbByte i b) ?_ (by omega)
    intro c hc
    rcases Cells.mem_put _ _ _ _ _ hc with rfl | hc
    · simp; omega
    · exact h c hc

theorem State.writeFb_wf (i : Nat) (bs : List Byte) (s : State) (h : Cells.wf unlistedByte s.e.fb = true) :
    Cells.wf unlistedByte (s.writeFb i bs).e.fb = true := by
  induction bs generalizing i s with
  | nil => exact h
  | cons b bs ih => exact ih (i + 1) (s.setFbByte i b) (Cells.wf_put _ _ _ _ h)

/-! ### The canonical form is kept by every memory operation -/

theorem Memory.wf_iff (s : State) :
    Memory.wf s = true ↔ Cells.wf unlistedByte s.e.fb = true ∧ Cells.wf unlistedEntry s.regs = true ∧
      Cells.wf Txn.blank s.txns = true := by
  simp [Memory.wf, and_assoc]

theorem Memory.wf_setFbByte (i : Nat) (b : Byte) (s : State) (h : Memory.wf s = true) :
    Memory.wf (s.setFbByte i b) = true := by
  rw [Memory.wf_iff] at h ⊢; exact ⟨Cells.wf_put _ _ _ _ h.1, h.2⟩

theorem Memory.wf_writeFb (i : Nat) (bs : List Byte) (s : State) (h : Memory.wf s = true) :
    Memory.wf (s.writeFb i bs) = true := by
  rw [Memory.wf_iff] at h ⊢
  exact ⟨State.writeFb_wf _ _ _ h.1, by simpa using h.2.1, by simpa using h.2.2⟩

theorem Memory.wf_setEntryAt (a : Nat) (v : HWord) (s : State) (h : Memory.wf s = true) :
    Memory.wf (s.setEntryAt a v) = true := by
  rw [Memory.wf_iff] at h ⊢; exact ⟨h.1, Cells.wf_put _ _ _ _ h.2.1, h.2.2⟩

theorem Memory.wf_setTxn (r : Nat) (t : Txn) (s : State) (h : Memory.wf s = true) :
    Memory.wf (s.setTxn r t) = true := by
  rw [Memory.wf_iff] at h ⊢; exact ⟨h.1, h.2.1, Cells.wf_put _ _ _ _ h.2.2⟩

theorem Memory.wf_reset : Memory.wf State.reset = true := by decide

/-! ### The reply read primitive -/

/-- `RxByte(i)` gives a byte and leaves everything but the count of free values, or raises ReadBeyondFrame. -/
theorem rxByte_ok {i : Nat} {s s' : State} {b : Byte} (h : rxByte i s = .ok (b, s')) :
    (i < s.e.n ∧ b = s.fbByte i ∧ s' = s) ∨ (¬ i < s.e.n ∧ i < s.par.frameCap ∧ s' = s.drawn) := by
  unfold rxByte at h
  split at h
  · simp only [Except.ok.injEq, Prod.mk.injEq] at h; exact .inl ⟨‹_›, h.1.symm, h.2.symm⟩
  · split at h
    · simp only [Except.ok.injEq, Prod.mk.injEq] at h; exact .inr ⟨‹_›, ‹_›, h.2.symm⟩
    · simp at h

theorem rxByte_error {i : Nat} {s : State} {e : Fault × State} (h : rxByte i s = .error e) :
    e = (.readBeyondFrame, s) ∧ s.e.n ≤ i ∧ s.par.frameCap ≤ i := by
  unfold rxByte at h
  split at h
  · simp at h
  · split at h
    · simp at h
    · simp only [Except.error.injEq] at h; exact ⟨h.symm, by omega, by omega⟩

theorem rxByte_received {i : Nat} {s : State} (h : i < s.e.n) : rxByte i s = .ok (s.fbByte i, s) := by
  simp [rxByte, h]

theorem rxByte_draw {i : Nat} {s : State} (h : s.e.n ≤ i) (hc : i < s.par.frameCap) :
    rxByte i s = .ok (Config.freeByte s.ports.freeUsed, s.drawn) := by
  simp [rxByte, Nat.not_lt.mpr h, hc]

theorem rxByte_beyond {i : Nat} {s : State} (h : s.e.n ≤ i) (hc : s.par.frameCap ≤ i) :
    rxByte i s = .error (.readBeyondFrame, s) := by
  simp [rxByte, Nat.not_lt.mpr h, Nat.not_lt.mpr hc]

/-! ### The failure path and the success handler -/

theorem Txn.applyCeiling_yes {m : Word} {t : Txn} (h : m.toNat ≤ t.retries.toNat) :
    t.applyCeiling m = { t with connectionActive := false, retries := 0#32 } := by
  simp [Txn.applyCeiling, Txn.atCeiling, h]

theorem Txn.applyCeiling_no {m : Word} {t : Txn} (h : ¬ m.toNat ≤ t.retries.toNat) : t.applyCeiling m = t := by
  simp [Txn.applyCeiling, Txn.atCeiling, h]

theorem takeFailure_txn (r k : Nat) (kind : ErrorKind) (s : State) :
    (takeFailure r kind s).txn k =
      if k = r then ((s.txn r).countFailure kind).applyCeiling s.c.maxRetries else s.txn k := Cells.get_put _ _ _ _ _

theorem successHandler_txn (r k : Nat) (s : State) :
    (successHandler r s).txn k = if k = r then (s.txn r).countSuccess else s.txn k := Cells.get_put _ _ _ _ _

theorem acceptReply_txn (r k : Nat) (s : State) :
    (acceptReply r s).txn k = if k = r then (s.txn r).recordReply.countSuccess else s.txn k := by
  by_cases h : k = r <;>
    simp [acceptReply, successHandler, startTurnaround, State.readTimer, State.txn, State.modifyTxn, State.setTxn,
      Cells.get_put, h]

/-- `fail(kind)`: the outcome, the counters and the ceiling, the turnaround; nothing else (R251, R256). -/
theorem takeFailure_failedWith (r : Nat) (kind : ErrorKind) (s : State) :
    State.failedWith r kind s (takeFailure r kind s) := by
  have htx : (takeFailure r kind s).txn r = ((s.txn r).countFailure kind).applyCeiling s.c.maxRetries := by
    simp [takeFailure_txn]
  refine ⟨rfl, ⟨rfl, rfl⟩, rfl, ?_⟩
  rw [htx]
  by_cases hm : s.c.maxRetries.toNat ≤ ((s.txn r).countFailure kind).retries.toNat
  · rw [Txn.applyCeiling_yes hm]
    exact ⟨rfl, rfl, rfl, rfl, fun _ => ⟨rfl, rfl⟩, fun h => absurd hm h⟩
  · rw [Txn.applyCeiling_no hm]
    exact ⟨rfl, rfl, rfl, rfl, fun h => absurd h hm, fun _ => ⟨rfl, rfl⟩⟩

theorem Txn.countFailure_sameArguments (kind : ErrorKind) (m : Word) (t : Txn) :
    t.sameArguments ((t.countFailure kind).applyCeiling m) ∧
      ((t.countFailure kind).applyCeiling m).requestsIssued = t.requestsIssued := by
  by_cases hm : m.toNat ≤ (t.countFailure kind).retries.toNat
  · rw [Txn.applyCeiling_yes hm]; exact ⟨⟨rfl, rfl, rfl, rfl, rfl, rfl, rfl⟩, rfl⟩
  · rw [Txn.applyCeiling_no hm]; exact ⟨⟨rfl, rfl, rfl, rfl, rfl, rfl, rfl⟩, rfl⟩

theorem takeFailure_frame (r : Nat) (kind : ErrorKind) (s : State) :
    State.sameButResolution r s (takeFailure r kind s) ∧ (takeFailure r kind s).regs = s.regs := by
  have htx : (takeFailure r kind s).txn r = ((s.txn r).countFailure kind).applyCeiling s.c.maxRetries := by
    simp [takeFailure_txn]
  have hargs := Txn.countFailure_sameArguments kind s.c.maxRetries (s.txn r)
  rw [← htx] at hargs
  refine ⟨⟨rfl, rfl, fun _ => rfl, fun k hk => ?_, hargs.1, hargs.2, rfl, rfl, rfl, rfl, rfl, rfl, rfl, rfl, ?_, ?_, ?_, ?_⟩,
    rfl⟩
  · simp [takeFailure_txn, hk]
  all_goals simp [takeFailure, failureHandler, startTurnaround, State.readTimer]

/-- The failure path writes no register-buffer entry (R162). -/
theorem takeFailure_entryAt (r : Nat) (kind : ErrorKind) (s : State) (a : Nat) :
    (takeFailure r kind s).entryAt a = s.entryAt a := by
  simp only [State.entryAt, (takeFailure_frame r kind s).2]

/-- The success handler: the counters and the turnaround; nothing else (R204). -/
theorem successHandler_succeeded (r : Nat) (s : State) : State.succeeded r s (successHandler r s) := by
  have htx : (successHandler r s).txn r = (s.txn r).countSuccess := by simp [successHandler_txn]
  refine ⟨⟨rfl, rfl⟩, rfl, ?_⟩
  rw [htx]; exact ⟨rfl, rfl, rfl, rfl, rfl⟩

theorem successHandler_frame (r : Nat) (s : State) :
    State.sameButResolution r s (successHandler r s) ∧ (successHandler r s).regs = s.regs := by
  have htx : (successHandler r s).txn r = (s.txn r).countSuccess := by simp [successHandler_txn]
  refine ⟨⟨rfl, rfl, fun _ => rfl, fun k hk => ?_, ?_, ?_, rfl, rfl, rfl, rfl, rfl, rfl, rfl, rfl, ?_, ?_, ?_, ?_⟩, rfl⟩
  · simp [successHandler_txn, hk]
  · rw [htx]; exact ⟨rfl, rfl, rfl, rfl, rfl, rfl, rfl⟩
  · rw [htx]; rfl
  all_goals simp [successHandler, startTurnaround, State.readTimer]

/-- The success handler writes no register-buffer entry (R202). -/
theorem successHandler_entryAt (r : Nat) (s : State) (a : Nat) : (successHandler r s).entryAt a = s.entryAt a := by
  simp only [State.entryAt, (successHandler_frame r s).2]

/-- A reply accepted (R155, R157, R159). -/
theorem acceptReply_succeeded (r : Nat) (s : State) : State.succeededByReply r s (acceptReply r s) := by
  have htx : (acceptReply r s).txn r = (s.txn r).recordReply.countSuccess := by simp [acceptReply_txn]
  refine ⟨rfl, ⟨⟨rfl, rfl⟩, rfl, ?_⟩, ?_⟩
  · rw [htx]; exact ⟨rfl, rfl, rfl, rfl, rfl⟩
  · rw [htx]; rfl

theorem acceptReply_frame (r : Nat) (s : State) :
    State.sameButResolution r s (acceptReply r s) ∧ (acceptReply r s).regs = s.regs := by
  have htx : (acceptReply r s).txn r = (s.txn r).recordReply.countSuccess := by simp [acceptReply_txn]
  refine ⟨⟨rfl, rfl, fun _ => rfl, fun k hk => ?_, ?_, ?_, rfl, rfl, rfl, rfl, rfl, rfl, rfl, rfl, ?_, ?_, ?_, ?_⟩, rfl⟩
  · simp [acceptReply_txn, hk]
  · rw [htx]; exact ⟨rfl, rfl, rfl, rfl, rfl, rfl, rfl⟩
  · rw [htx]; rfl
  all_goals simp [acceptReply, successHandler, startTurnaround, State.readTimer]

/-- Done (R208): the dispatch counter, the phase and the current Transaction; nothing else. -/
theorem finishRun_eq (s : State) :
    (finishRun s).e = { s.e with dispatchCount := s.e.dispatchCount + 1#32, phase := .idle, cur := none } ∧
      (finishRun s).c = s.c ∧ (finishRun s).txns = s.txns ∧ (finishRun s).regs = s.regs ∧
      (finishRun s).ports = s.ports ∧ (finishRun s).par = s.par ∧ (finishRun s).rxDone = s.rxDone :=
  ⟨rfl, rfl, rfl, rfl, rfl, rfl, rfl⟩

end Sys2Proof.Machine
end

