-- ==== Sys2Proof/Laws/PerInstr.lean ====
section
/-! SUPPORT. One lemma per operation: its encoding begins with a byte of its own row of spec/opcode_table.json. -/

namespace Sys2Proof.Laws

/-- The mask and the match of an operation's row. -/
def opcodeRow : Instr → Byte × Byte
  | .reqReadCoilStatus => (0xFF#8, 0x01#8)
  | .reqReadInputStatus => (0xFF#8, 0x02#8)
  | .reqReadHoldingRegisters => (0xFF#8, 0x03#8)
  | .reqReadInputRegisters => (0xFF#8, 0x04#8)
  | .reqForceMultipleCoils => (0xFF#8, 0x0F#8)
  | .reqPresetMultipleRegisters => (0xFF#8, 0x10#8)
  | .rplException _ => (0x80#8, 0x80#8)
  | .rplReadCoilStatus => (0xFF#8, 0x01#8)
  | .rplReadInputStatus => (0xFF#8, 0x02#8)
  | .rplReadHoldingRegisters => (0xFF#8, 0x03#8)
  | .rplReadInputRegisters => (0xFF#8, 0x04#8)
  | .rplForceMultipleCoils => (0xFF#8, 0x0F#8)
  | .rplPresetMultipleRegisters => (0xFF#8, 0x10#8)
  | .rplUnsupported _ => (0x80#8, 0x00#8)
  | .configure _ _ _ _ _ _ => (0xFF#8, 0x00#8)
  | .construct _ _ _ _ _ _ _ => (0xFF#8, 0x01#8)
  | .run _ => (0xFF#8, 0x02#8)
  | .crc _ => (0xFF#8, 0x03#8)

/-- A well-formed operation's first byte, under its row's mask, is its row's match. -/
def OpcodeByte.Statement (i : Instr) : Prop :=
  i.wf = true → (encode i).head?.map (fun b => b &&& (opcodeRow i).1) = some (opcodeRow i).2

/-- A byte with bit 7 set, masked. -/
theorem exceptionByte_masked (f : Byte) : isExceptionByte f = true → f &&& 0x80#8 = 0x80#8 := by
  revert f; decide

theorem plainByte_masked (f : Byte) : isExceptionByte f = false → f &&& 0x80#8 = 0x00#8 := by
  revert f; decide

theorem OpcodeByte.reqReadCoilStatus :
    OpcodeByte.Statement .reqReadCoilStatus := fun _ => rfl

theorem OpcodeByte.reqReadInputStatus :
    OpcodeByte.Statement .reqReadInputStatus := fun _ => rfl

theorem OpcodeByte.reqReadHoldingRegisters :
    OpcodeByte.Statement .reqReadHoldingRegisters := fun _ => rfl

theorem OpcodeByte.reqReadInputRegisters :
    OpcodeByte.Statement .reqReadInputRegisters := fun _ => rfl

theorem OpcodeByte.reqForceMultipleCoils :
    OpcodeByte.Statement .reqForceMultipleCoils := fun _ => rfl

theorem OpcodeByte.reqPresetMultipleRegisters :
    OpcodeByte.Statement .reqPresetMultipleRegisters := fun _ => rfl

theorem OpcodeByte.rplException (f : Byte) : OpcodeByte.Statement (.rplException f) :=
  fun h => congrArg some (exceptionByte_masked f h)

theorem OpcodeByte.rplReadCoilStatus :
    OpcodeByte.Statement .rplReadCoilStatus := fun _ => rfl

theorem OpcodeByte.rplReadInputStatus :
    OpcodeByte.Statement .rplReadInputStatus := fun _ => rfl

theorem OpcodeByte.rplReadHoldingRegisters :
    OpcodeByte.Statement .rplReadHoldingRegisters := fun _ => rfl

theorem OpcodeByte.rplReadInputRegisters :
    OpcodeByte.Statement .rplReadInputRegisters := fun _ => rfl

theorem OpcodeByte.rplForceMultipleCoils :
    OpcodeByte.Statement .rplForceMultipleCoils := fun _ => rfl

theorem OpcodeByte.rplPresetMultipleRegisters :
    OpcodeByte.Statement .rplPresetMultipleRegisters := fun _ => rfl

theorem OpcodeByte.rplUnsupported (f : Byte) : OpcodeByte.Statement (.rplUnsupported f) := by
  intro h
  simp only [Instr.wf, Bool.and_eq_true, Bool.not_eq_true'] at h
  exact congrArg some (plainByte_masked f h.1)

theorem OpcodeByte.configure (baud timeout delay retries : Word) (list : Nat) (count : Word) :
    OpcodeByte.Statement (.configure baud timeout delay retries list count) := fun _ => by simp [encode, opcodeRow]

theorem OpcodeByte.construct (t : Nat) (slave function : Byte) (address quantity : HWord) (rb len : Nat) :
    OpcodeByte.Statement (.construct t slave function address quantity rb len) := fun _ => by simp [encode, opcodeRow]

theorem OpcodeByte.run (t : Nat) :
    OpcodeByte.Statement (.run t) := fun _ => by simp [encode, opcodeRow]

theorem OpcodeByte.crc (bytes : List Byte) :
    OpcodeByte.Statement (.crc bytes) := fun _ => by simp [encode, opcodeRow]

end Sys2Proof.Laws
end

