-- ==== Sys2Proof/Laws/Replies.lean ====
section
/-! SUPPORT. What the decode loops can do, once: which entries they write with what, and when they raise ReadBeyondFrame. -/

namespace Sys2Proof.Machine

/-- Two states that differ at most in the register buffers, which keep their canonical form, and the count of free values
used. -/
structure DataOnly (s t : State) : Prop where
  par : t.par = s.par
  e : t.e = s.e
  c : t.c = s.c
  txns : t.txns = s.txns
  rxDone : t.rxDone = s.rxDone
  ports : t.ports = { s.ports with freeUsed := t.ports.freeUsed }
  wf : Cells.wf unlistedEntry s.regs = true → Cells.wf unlistedEntry t.regs = true

theorem DataOnly.refl (s : State) : DataOnly s s := ⟨rfl, rfl, rfl, rfl, rfl, rfl, id⟩

theorem DataOnly.trans {s t u : State} (h : DataOnly s t) (k : DataOnly t u) : DataOnly s u :=
  ⟨k.par.trans h.par, k.e.trans h.e, k.c.trans h.c, k.txns.trans h.txns, k.rxDone.trans h.rxDone, by
    rw [k.ports, h.ports], k.wf ∘ h.wf⟩

theorem DataOnly.drawn (s : State) : DataOnly s s.drawn := ⟨rfl, rfl, rfl, rfl, rfl, rfl, id⟩

theorem DataOnly.setEntryAt (s : State) (a : Nat) (v : HWord) : DataOnly s (s.setEntryAt a v) :=
  ⟨rfl, rfl, rfl, rfl, rfl, rfl, Cells.wf_put _ _ _ _⟩

theorem DataOnly.fbByte {s t : State} (h : DataOnly s t) (i : Nat) : t.fbByte i = s.fbByte i := by
  simp [State.fbByte, h.e]

theorem DataOnly.txn {s t : State} (h : DataOnly s t) (r : Nat) : t.txn r = s.txn r := by
  simp [State.txn, h.txns]

/-- A read of the frame changes at most the count of free values. -/
theorem rxByte_dataOnly {i : Nat} {s t : State} {b : Byte} (h : rxByte i s = .ok (b, t)) :
    DataOnly s t ∧ t.regs = s.regs ∧ (i < s.e.n → b = s.fbByte i) ∧ (i < s.e.n ∨ i < s.par.frameCap) := by
  rcases rxByte_ok h with ⟨h1, h2, rfl⟩ | ⟨h1, h2, rfl⟩
  · exact ⟨DataOnly.refl _, rfl, fun _ => h2, .inl h1⟩
  · exact ⟨DataOnly.drawn s, rfl, fun h => absurd h h1, .inr h2⟩

theorem DataOnly.entryAt_of_regs {s t : State} (h : t.regs = s.regs) (a : Nat) : t.entryAt a = s.entryAt a := by
  simp [State.entryAt, h]

/-- What a decode loop from entry `i` for `m` entries leaves: nothing but data changed, entries outside its range as
before, and each entry `P` speaks of written with `val`. -/
structure LoopLeaves (rb i m : Nat) (P : Nat → Prop) (val : Nat → HWord) (s t : State) : Prop where
  data : DataOnly s t
  outside : ∀ a, a < rb + i ∨ rb + i + m ≤ a → t.entryAt a = s.entryAt a
  written : ∀ k, i ≤ k → k < i + m → P k → t.entryAt (rb + k) = val k

/-- A loop that fails wrote what came before the read that failed: entries that `Q` says were not reached are as before. -/
structure LoopFails (rb i m : Nat) (P Q : Nat → Prop) (val : Nat → HWord) (s : State) (e : Fault × State) : Prop where
  fault : e.1 = .readBeyondFrame
  leaves : LoopLeaves rb i m P val s e.2
  unreached : ∀ k, i ≤ k → Q k → e.2.entryAt (rb + k) = s.entryAt (rb + k)

/-- One entry written, then the rest of the loop. -/
theorem LoopLeaves.cons {rb i m : Nat} {P : Nat → Prop} {val : Nat → HWord} {s s' t : State} {v : HWord}
    (hd : DataOnly s s') (hr : s'.regs = s.regs) (hv : P i → v = val i)
    (h : LoopLeaves rb (i + 1) m P val (s'.setEntryAt (rb + i) v) t) : LoopLeaves rb i (m + 1) P val s t where
  data := (hd.trans (DataOnly.setEntryAt _ _ _)).trans h.data
  outside a ha := by
    rw [h.outside a (by omega), State.setEntryAt_entryAt, if_neg (by omega), DataOnly.entryAt_of_regs hr]
  written k hk hk2 hp := by
    by_cases hki : k = i
    · subst hki
      rw [h.outside (rb + k) (by omega), State.setEntryAt_entryAt, if_pos rfl, hv hp]
    · exact h.written k (by omega) (by omega) hp

/-- The register loop (R157): stores each register, high byte first, or raises ReadBeyondFrame when its data runs past
the frame buffer. -/
theorem registerLoop_spec (rb m i : Nat) (s : State) :
    match registerLoop rb m i s with
    | .ok t => LoopLeaves rb i m (fun k => 4 + 2 * k < s.e.n)
        (fun k => be16 (s.fbByte (3 + 2 * k)) (s.fbByte (4 + 2 * k))) s t ∧
        (m = 0 ∨ 2 + 2 * (i + m) < s.e.n ∨ 2 + 2 * (i + m) < s.par.frameCap)
    | .error e =>
      s.par.frameCap < 3 + 2 * (i + m) ∧ DataOnly s e.2 ∧
        (∀ a, a < rb + i ∨ rb + i + m ≤ a → e.2.entryAt a = s.entryAt a) ∧
      (s.e.n ≤ s.par.frameCap →
        LoopFails rb i m (fun k => 4 + 2 * k < s.e.n) (fun k => s.par.frameCap ≤ 4 + 2 * k)
          (fun k => be16 (s.fbByte (3 + 2 * k)) (s.fbByte (4 + 2 * k))) s e) := by
  induction m generalizing i s with
  | zero => exact ⟨⟨DataOnly.refl s, fun _ _ => rfl, fun k h1 h2 => absurd h2 (by omega)⟩, .inl rfl⟩
  | succ m ih =>
    simp only [registerLoop]
    rcases h1 : rxByte (3 + 2 * i) s with e | ⟨high, s1⟩
    · obtain ⟨rfl, h2, h3⟩ := rxByte_error h1
      exact ⟨by omega, DataOnly.refl s, fun _ _ => rfl, fun _ =>
        ⟨rfl, ⟨DataOnly.refl s, fun _ _ => rfl, fun k hk _ hp => absurd hp (by omega)⟩, fun _ _ _ => rfl⟩⟩
    · obtain ⟨d1, r1, v1, _⟩ := rxByte_dataOnly h1
      simp only
      rcases h2 : rxByte (4 + 2 * i) s1 with e | ⟨low, s2⟩
      · obtain ⟨rfl, h3, h4⟩ := rxByte_error h2
        rw [d1.e] at h3; rw [d1.par] at h4
        exact ⟨by omega, d1, fun a _ => DataOnly.entryAt_of_regs r1 a, fun _ =>
          ⟨rfl, ⟨d1, fun a _ => DataOnly.entryAt_of_regs r1 a, fun k hk _ hp => absurd hp (by omega)⟩,
            fun k _ _ => DataOnly.entryAt_of_regs r1 _⟩⟩
      · obtain ⟨d2, r2, v2, b2⟩ := rxByte_dataOnly h2
        have hd := d1.trans d2
        have hr : s2.regs = s.regs := r2.trans r1
        have hv : 4 + 2 * i < s.e.n →
            be16 high low = be16 (s.fbByte (3 + 2 * i)) (s.fbByte (4 + 2 * i)) := by
          intro hp
          rw [v1 (by omega), v2 (by rw [d1.e]; omega), d1.fbByte]
        simp only
        have := ih (i + 1) (s2.setEntryAt (rb + i) (be16 high low))
        rcases h3 : registerLoop rb m (i + 1) (s2.setEntryAt (rb + i) (be16 high low)) with e | t
        · rw [h3] at this
          simp only [State.setEntryAt_e, State.setEntryAt_par, State.setEntryAt_fbByte, hd.e, hd.par, hd.fbByte] at this ⊢
          obtain ⟨hlt, hdata, hout, hfail⟩ := this
          refine ⟨by omega, (hd.trans (DataOnly.setEntryAt _ _ _)).trans hdata, fun a ha => ?_, fun hn => ?_⟩
          · rw [hout a (by omega), State.setEntryAt_entryAt, if_neg (by omega), DataOnly.entryAt_of_regs hr]
          have hf := hfail hn
          refine ⟨hf.fault, LoopLeaves.cons hd hr hv hf.leaves, fun k hk hq => ?_⟩
          have hb : 4 + 2 * i < s.par.frameCap := by
            rw [d1.e, d1.par] at b2; omega
          rw [hf.unreached k (by omega) hq, State.setEntryAt_entryAt, if_neg (by omega),
            DataOnly.entryAt_of_regs hr]
        · rw [h3] at this
          simp only [State.setEntryAt_e, State.setEntryAt_par, State.setEntryAt_fbByte, hd.e, hd.par, hd.fbByte] at this ⊢
          refine ⟨LoopLeaves.cons hd hr hv this.1, .inr ?_⟩
          rw [d1.e, d1.par] at b2; omega

/-- The coil loop (R155): stores each entry low byte first, the last with high byte 0x00 when the byte count is odd. -/
theorem coilLoop_spec (rb bc m i : Nat) (s : State) :
    match coilLoop rb bc m i s with
    | .ok t => LoopLeaves rb i m (fun k => 3 + 2 * k < s.e.n ∧ (2 * k + 1 < bc → 4 + 2 * k < s.e.n))
        (fun k => le16 (s.fbByte (3 + 2 * k)) (if 2 * k + 1 < bc then s.fbByte (4 + 2 * k) else 0x00#8)) s t ∧
        ∀ k, i ≤ k → k < i + m → (3 + 2 * k < s.e.n ∨ 3 + 2 * k < s.par.frameCap) ∧
          (2 * k + 1 < bc → 4 + 2 * k < s.e.n ∨ 4 + 2 * k < s.par.frameCap)
    | .error e => e.1 = .readBeyondFrame ∧ DataOnly s e.2 ∧
        (∀ a, a < rb + i ∨ rb + i + m ≤ a → e.2.entryAt a = s.entryAt a) ∧
        ∃ k, i ≤ k ∧ k < i + m ∧ (s.par.frameCap ≤ 3 + 2 * k ∨ (2 * k + 1 < bc ∧ s.par.frameCap ≤ 4 + 2 * k)) := by
  induction m generalizing i s with
  | zero =>
    exact ⟨⟨DataOnly.refl s, fun _ _ => rfl, fun k h1 h2 => absurd h2 (by omega)⟩, fun k h1 h2 => absurd h2 (by omega)⟩
  | succ m ih =>
    simp only [coilLoop]
    rcases h1 : rxByte (3 + 2 * i) s with e | ⟨low, s1⟩
    · obtain ⟨rfl, h2, h3⟩ := rxByte_error h1
      exact ⟨rfl, DataOnly.refl s, fun _ _ => rfl, i, by omega, by omega, .inl h3⟩
    · obtain ⟨d1, r1, v1, b1⟩ := rxByte_dataOnly h1
      simp only
      by_cases hbc : 2 * i + 1 < bc
      · rw [if_pos hbc]
        rcases h2 : rxByte (4 + 2 * i) s1 with e | ⟨high, s2⟩
        · obtain ⟨rfl, h3, h4⟩ := rxByte_error h2
          rw [d1.par] at h4
          exact ⟨rfl, d1, fun a _ => DataOnly.entryAt_of_regs r1 a, i, by omega, by omega, .inr ⟨hbc, h4⟩⟩
        · obtain ⟨d2, r2, v2, b2⟩ := rxByte_dataOnly h2
          have hd := d1.trans d2
          have hr : s2.regs = s.regs := r2.trans r1
          simp only
          have := ih (i + 1) (s2.setEntryAt (rb + i) (le16 low high))
          rcases h3 : coilLoop rb bc m (i + 1) (s2.setEntryAt (rb + i) (le16 low high)) with e | t
          · rw [h3] at this
            simp only [State.setEntryAt_par, hd.par] at this ⊢
            obtain ⟨hf, hdata, hout, k, hk, hk2, hk3⟩ := this
            refine ⟨hf, (hd.trans (DataOnly.setEntryAt _ _ _)).trans hdata, fun a ha => ?_, k, by omega, by omega, hk3⟩
            rw [hout a (by omega), State.setEntryAt_entryAt, if_neg (by omega), DataOnly.entryAt_of_regs hr]
          · rw [h3] at this
            simp only [State.setEntryAt_e, State.setEntryAt_par, State.setEntryAt_fbByte, hd.e, hd.par, hd.fbByte] at this ⊢
            refine ⟨LoopLeaves.cons hd hr (fun hp => ?_) this.1, fun k hk hk2 => ?_⟩
            · rw [v1 hp.1, v2 (by rw [d1.e]; exact hp.2 hbc), d1.fbByte, if_pos hbc]
            · by_cases hki : k = i
              · subst hki; rw [d1.e, d1.par] at b2; exact ⟨b1, fun _ => b2⟩
              · exact this.2 k (by omega) (by omega)
      · rw [if_neg hbc]
        have := ih (i + 1) (s1.setEntryAt (rb + i) (le16 low 0x00#8))
        rcases h3 : coilLoop rb bc m (i + 1) (s1.setEntryAt (rb + i) (le16 low 0x00#8)) with e | t
        · rw [h3] at this
          simp only [State.setEntryAt_par, d1.par] at this ⊢
          obtain ⟨hf, hdata, hout, k, hk, hk2, hk3⟩ := this
          refine ⟨hf, (d1.trans (DataOnly.setEntryAt _ _ _)).trans hdata, fun a ha => ?_, k, by omega, by omega, hk3⟩
          rw [hout a (by omega), State.setEntryAt_entryAt, if_neg (by omega), DataOnly.entryAt_of_regs r1]
        · rw [h3] at this
          simp only [State.setEntryAt_e, State.setEntryAt_par, State.setEntryAt_fbByte, d1.e, d1.par, d1.fbByte] at this ⊢
          refine ⟨LoopLeaves.cons d1 r1 (fun hp => ?_) this.1, fun k hk hk2 => ?_⟩
          · rw [v1 hp.1, if_neg hbc]
          · by_cases hki : k = i
            · subst hki; exact ⟨b1, fun h => absurd h hbc⟩
            · exact this.2 k (by omega) (by omega)

/-! ### What a reply operation answers -/

/-- The three ways a reply operation ends: the failure path with no entry written, a reply accepted, a model fault. -/
def ReplyEnds (r m : Nat) (s t : State) : Prop :=
  (∃ kind u, DataOnly s u ∧ u.regs = s.regs ∧ t = takeFailure r kind u) ∨
    (∃ u, DataOnly s u ∧ (∀ a, a < (s.txn r).rb ∨ (s.txn r).rb + m ≤ a → u.entryAt a = s.entryAt a) ∧
      t = acceptReply r u) ∨
    ∃ f u, DataOnly s u ∧ (∀ a, a < (s.txn r).rb ∨ (s.txn r).rb + m ≤ a → u.entryAt a = s.entryAt a) ∧
      t = u.raised f

theorem decodeData_ends {r expected m : Nat} {loop : State → Except (Fault × State) State} {s : State}
    (hok : ∀ u v, DataOnly s u → u.regs = s.regs → loop u = .ok v → DataOnly u v ∧
      ∀ a, a < (s.txn r).rb ∨ (s.txn r).rb + m ≤ a → v.entryAt a = u.entryAt a)
    (herr : ∀ u e, DataOnly s u → u.regs = s.regs → loop u = .error e → DataOnly u e.2 ∧
      ∀ a, a < (s.txn r).rb ∨ (s.txn r).rb + m ≤ a → e.2.entryAt a = u.entryAt a) :
    ∃ t, decodeData r expected m loop s = .next t ∧ ReplyEnds r m s t := by
  simp only [decodeData]
  rcases h : rxByte 2 s with e | ⟨count, u⟩
  · obtain ⟨rfl, -⟩ := rxByte_error h
    exact ⟨_, rfl, .inr (.inr ⟨_, s, DataOnly.refl s, fun _ _ => rfl, rfl⟩)⟩
  · obtain ⟨hd, hr, -⟩ := rxByte_dataOnly h
    simp only
    split
    · exact ⟨_, rfl, .inl ⟨_, u, hd, hr, rfl⟩⟩
    · split
      · exact ⟨_, rfl, .inr (.inr ⟨_, u, hd, fun a _ => DataOnly.entryAt_of_regs hr a, rfl⟩)⟩
      · rcases hl : loop u with e | v
        · obtain ⟨h1, h2⟩ := herr u e hd hr hl
          exact ⟨_, rfl, .inr (.inr ⟨_, e.2, hd.trans h1, fun a ha =>
            (h2 a ha).trans (DataOnly.entryAt_of_regs hr a), rfl⟩)⟩
        · obtain ⟨h1, h2⟩ := hok u v hd hr hl
          exact ⟨_, rfl, .inr (.inl ⟨v, hd.trans h1, fun a ha =>
            (h2 a ha).trans (DataOnly.entryAt_of_regs hr a), rfl⟩)⟩

theorem decodeRegisters_ends {s : State} {r : Nat} (hc : s.e.cur = some r) :
    ∃ t, decodeRegisters s = .next t ∧ ReplyEnds r (s.txn r).quantity.toNat s t := by
  simp only [decodeRegisters, withAttempt, hc]
  refine decodeData_ends (fun u v _ _ h => ?_) (fun u e _ _ h => ?_)
  · have := registerLoop_spec (s.txn r).rb (s.txn r).quantity.toNat 0 u
    rw [h] at this
    exact ⟨this.1.data, fun a ha => this.1.outside a (by omega)⟩
  · have := registerLoop_spec (s.txn r).rb (s.txn r).quantity.toNat 0 u
    rw [h] at this
    exact ⟨this.2.1, fun a ha => this.2.2.1 a (by omega)⟩

theorem decodeCoil_ends {s : State} {r : Nat} (hc : s.e.cur = some r) :
    ∃ t, decodeCoil s = .next t ∧ ReplyEnds r (coilEntries s.par.coilRule (s.txn r).quantity.toNat) s t := by
  simp only [decodeCoil, withAttempt, hc]
  refine decodeData_ends (fun u v _ _ h => ?_) (fun u e _ _ h => ?_)
  · have := coilLoop_spec (s.txn r).rb (coilBytes s.par.coilRule (s.txn r).quantity.toNat)
      (coilEntries s.par.coilRule (s.txn r).quantity.toNat) 0 u
    rw [h] at this
    exact ⟨this.1.data, fun a ha => this.1.outside a (by omega)⟩
  · have := coilLoop_spec (s.txn r).rb (coilBytes s.par.coilRule (s.txn r).quantity.toNat)
      (coilEntries s.par.coilRule (s.txn r).quantity.toNat) 0 u
    rw [h] at this
    exact ⟨this.2.1, fun a ha => this.2.2.1 a (by omega)⟩

theorem rxBe16_ok {i : Nat} {s t : State} {v : HWord} (h : rxBe16 i s = .ok (v, t)) :
    DataOnly s t ∧ t.regs = s.regs ∧ (i + 1 < s.e.n → v = be16 (s.fbByte i) (s.fbByte (i + 1)) ) := by
  simp only [rxBe16] at h
  rcases h1 : rxByte i s with e | ⟨high, s1⟩
  · simp [h1] at h
  · rcases h2 : rxByte (i + 1) s1 with e | ⟨low, s2⟩
    · simp [h1, h2] at h
    · simp only [h1, h2, Except.ok.injEq, Prod.mk.injEq] at h
      obtain ⟨rfl, rfl⟩ := h
      obtain ⟨d1, r1, v1, -⟩ := rxByte_dataOnly h1
      obtain ⟨d2, r2, v2, -⟩ := rxByte_dataOnly h2
      exact ⟨d1.trans d2, r2.trans r1, fun hn => by rw [v1 (by omega), v2 (by rw [d1.e]; omega), d1.fbByte]⟩

theorem rxBe16_error {i : Nat} {s : State} {e : Fault × State} (h : rxBe16 i s = .error e) :
    DataOnly s e.2 ∧ e.2.regs = s.regs := by
  simp only [rxBe16] at h
  rcases h1 : rxByte i s with e | ⟨high, s1⟩
  · simp only [h1, Except.error.injEq] at h
    obtain ⟨rfl, -⟩ := rxByte_error h1
    subst h; exact ⟨DataOnly.refl s, rfl⟩
  · obtain ⟨d1, r1, -⟩ := rxByte_dataOnly h1
    rcases h2 : rxByte (i + 1) s1 with e | ⟨low, s2⟩
    · simp only [h1, h2, Except.error.injEq] at h
      obtain ⟨rfl, -⟩ := rxByte_error h2
      subst h; exact ⟨d1, r1⟩
    · simp [h1, h2] at h

theorem rxBe16_received {i : Nat} {s : State} (h : i + 1 < s.e.n) :
    rxBe16 i s = .ok (be16 (s.fbByte i) (s.fbByte (i + 1)), s) := by
  simp [rxBe16, rxByte_received h, rxByte_received (Nat.lt_of_succ_lt h)]

theorem decodeEcho_ends {s : State} {r : Nat} (hc : s.e.cur = some r) :
    ∃ t, decodeEcho s = .next t ∧ ReplyEnds r 0 s t := by
  simp only [decodeEcho, withAttempt, hc]
  rcases h1 : rxBe16 2 s with e | ⟨address, u⟩
  · obtain ⟨d, hr⟩ := rxBe16_error h1
    exact ⟨_, rfl, .inr (.inr ⟨_, e.2, d, fun a _ => DataOnly.entryAt_of_regs hr a, rfl⟩)⟩
  · obtain ⟨d1, r1, -⟩ := rxBe16_ok h1
    simp only
    rcases h2 : rxBe16 4 u with e | ⟨quantity, v⟩
    · obtain ⟨d, hr⟩ := rxBe16_error h2
      exact ⟨_, rfl, .inr (.inr ⟨_, e.2, d1.trans d, fun a _ => DataOnly.entryAt_of_regs (hr.trans r1) a, rfl⟩)⟩
    · obtain ⟨d2, r2, -⟩ := rxBe16_ok h2
      simp only
      split
      · exact ⟨_, rfl, .inl ⟨_, v, d1.trans d2, r2.trans r1, rfl⟩⟩
      · exact ⟨_, rfl, .inr (.inl ⟨v, d1.trans d2, fun a _ => DataOnly.entryAt_of_regs (r2.trans r1) a, rfl⟩)⟩

/-- Every reply operation of an attempt answers a next state, one of three. -/
theorem reply_ends {i : Instr} {s : State} {r : Nat} (hi : i.space = .reply) (hc : s.e.cur = some r) :
    ∃ t, exec i s = .next t ∧ ReplyEnds r (replyEntries s.par.coilRule (s.txn r).quantity.toNat i) s t := by
  cases i with
  | rplException f =>
    exact ⟨_, by simp only [exec, execRplException, withAttempt, hc]; rfl,
      .inl ⟨_, s, DataOnly.refl s, rfl, rfl⟩⟩
  | rplUnsupported f =>
    exact ⟨_, by simp only [exec, execRplUnsupported, withAttempt, hc]; rfl,
      .inl ⟨_, s, DataOnly.refl s, rfl, rfl⟩⟩
  | rplReadCoilStatus => exact decodeCoil_ends hc
  | rplReadInputStatus => exact decodeCoil_ends hc
  | rplReadHoldingRegisters => exact decodeRegisters_ends hc
  | rplReadInputRegisters => exact decodeRegisters_ends hc
  | rplForceMultipleCoils => exact decodeEcho_ends hc
  | rplPresetMultipleRegisters => exact decodeEcho_ends hc
  | reqReadCoilStatus => simp [Instr.space] at hi
  | reqReadInputStatus => simp [Instr.space] at hi
  | reqReadHoldingRegisters => simp [Instr.space] at hi
  | reqReadInputRegisters => simp [Instr.space] at hi
  | reqForceMultipleCoils => simp [Instr.space] at hi
  | reqPresetMultipleRegisters => simp [Instr.space] at hi
  | configure => simp [Instr.space] at hi
  | construct => simp [Instr.space] at hi
  | run => simp [Instr.space] at hi
  | crc => simp [Instr.space] at hi

end Sys2Proof.Machine
end

