-- ==== Sys2Proof/Laws/Requests.lean ====
section
/-! SUPPORT. What encoding, sending and the end of phase IDLE do, once for all six requests. -/

namespace Sys2Proof.Machine

@[simp] theorem withCrc_length (body : List Byte) : (withCrc body).length = body.length + 2 := by simp [withCrc]

/-- `AppendCrc(L)` over a body just written: the frame buffer holds the frame. -/
theorem encodeFrame_eq (body : List Byte) (s : State) :
    encodeFrame body s =
      { ((s.writeFb 0 body).writeFb body.length [lo (crc16 body), hi (crc16 body)]) with
        e := { ((s.writeFb 0 body).writeFb body.length [lo (crc16 body), hi (crc16 body)]).e with
               txLen := body.length + 2 } } := by
  simp only [encodeFrame, appendCrc, State.fbSlice_writeFb]

@[simp] theorem encodeFrame_par (body : List Byte) (s : State) : (encodeFrame body s).par = s.par := by
  simp [encodeFrame_eq]

@[simp] theorem encodeFrame_c (body : List Byte) (s : State) : (encodeFrame body s).c = s.c := by
  simp [encodeFrame_eq]

@[simp] theorem encodeFrame_txns (body : List Byte) (s : State) : (encodeFrame body s).txns = s.txns := by
  simp [encodeFrame_eq]

@[simp] theorem encodeFrame_regs (body : List Byte) (s : State) : (encodeFrame body s).regs = s.regs := by
  simp [encodeFrame_eq]

@[simp] theorem encodeFrame_ports (body : List Byte) (s : State) : (encodeFrame body s).ports = s.ports := by
  simp [encodeFrame_eq]

@[simp] theorem encodeFrame_rxDone (body : List Byte) (s : State) : (encodeFrame body s).rxDone = s.rxDone := by
  simp [encodeFrame_eq]

@[simp] theorem encodeFrame_txn (body : List Byte) (s : State) (k : Nat) : (encodeFrame body s).txn k = s.txn k := by
  simp [State.txn]

@[simp] theorem encodeFrame_entryAt (body : List Byte) (s : State) (a : Nat) :
    (encodeFrame body s).entryAt a = s.entryAt a := by
  simp [State.entryAt]

@[simp] theorem encodeFrame_txLen (body : List Byte) (s : State) : (encodeFrame body s).e.txLen = body.length + 2 := by
  simp [encodeFrame_eq]

/-- Encoding changes nothing of the engine but the frame buffer and `E.txLen` (R139). -/
theorem encodeFrame_e (body : List Byte) (s : State) :
    (encodeFrame body s).e = { s.e with fb := (encodeFrame body s).e.fb, txLen := body.length + 2 } := by
  rw [encodeFrame_eq]
  rw [State.writeFb_e body.length, State.writeFb_e 0]

@[simp] theorem encodeFrame_phase (body : List Byte) (s : State) : (encodeFrame body s).e.phase = s.e.phase := by
  rw [encodeFrame_e]

@[simp] theorem encodeFrame_cur (body : List Byte) (s : State) : (encodeFrame body s).e.cur = s.e.cur := by
  rw [encodeFrame_e]

@[simp] theorem encodeFrame_n (body : List Byte) (s : State) : (encodeFrame body s).e.n = s.e.n := by
  rw [encodeFrame_e]

@[simp] theorem encodeFrame_ovf (body : List Byte) (s : State) : (encodeFrame body s).e.ovf = s.e.ovf := by
  rw [encodeFrame_e]

@[simp] theorem encodeFrame_polls (body : List Byte) (s : State) : (encodeFrame body s).e.polls = s.e.polls := by
  rw [encodeFrame_e]

@[simp] theorem encodeFrame_t0 (body : List Byte) (s : State) : (encodeFrame body s).e.t0 = s.e.t0 := by
  rw [encodeFrame_e]

@[simp] theorem encodeFrame_tt (body : List Byte) (s : State) : (encodeFrame body s).e.tt = s.e.tt := by
  rw [encodeFrame_e]

@[simp] theorem encodeFrame_outcome (body : List Byte) (s : State) : (encodeFrame body s).e.outcome = s.e.outcome := by
  rw [encodeFrame_e]

@[simp] theorem encodeFrame_dispatchCount (body : List Byte) (s : State) : (encodeFrame body s).e.dispatchCount = s.e.dispatchCount := by
  rw [encodeFrame_e]

@[simp] theorem encodeFrame_configured (body : List Byte) (s : State) : (encodeFrame body s).e.configured = s.e.configured := by
  rw [encodeFrame_e]

@[simp] theorem encodeFrame_fault (body : List Byte) (s : State) : (encodeFrame body s).e.fault = s.e.fault := by
  rw [encodeFrame_e]

/-- The frame stands at index 0; the rest of the buffer is as before. -/
theorem encodeFrame_fbByte (body : List Byte) (s : State) (k : Nat) :
    (encodeFrame body s).fbByte k =
      if k < body.length + 2 then (withCrc body).getD k 0#8 else s.fbByte k := by
  have h : (encodeFrame body s).fbByte k =
      ((s.writeFb 0 body).writeFb body.length [lo (crc16 body), hi (crc16 body)]).fbByte k := by
    rw [encodeFrame_eq]; rfl
  rw [h, State.writeFb_fbByte, State.writeFb_fbByte]
  by_cases h1 : k < body.length
  · rw [if_neg (by simp; omega), if_pos (by omega), if_pos (by omega)]
    simp [withCrc, List.getElem?_append_left h1]
  · by_cases h2 : k < body.length + 2
    · rw [if_pos (by simp; omega), if_pos h2]
      simp [withCrc, List.getElem?_append_right (Nat.le_of_not_lt h1)]
    · rw [if_neg (by simp; omega), if_neg (by omega), if_neg h2]

/-- What is sent is the frame. -/
theorem encodeFrame_slice (body : List Byte) (s : State) :
    (encodeFrame body s).fbSlice 0 (body.length + 2) = withCrc body := by
  apply List.ext_getElem
  · simp [State.fbSlice]
  · intro k h1 h2
    simp only [withCrc_length] at h2
    simp [State.fbSlice, encodeFrame_fbByte, h2]

/-- A request sent: the frame goes to the collaborator, requestsIssued is counted; nothing else. -/
theorem sendRequest_encodeFrame (r : Nat) (body : List Byte) (s : State) :
    sendRequest r (encodeFrame body s) =
      ((encodeFrame body s).serialSend (withCrc body)).modifyTxn r Txn.countRequest := by
  simp only [sendRequest, encodeFrame_txLen, encodeFrame_slice]

/-- A request that fits: encode, send, count, then the end of phase IDLE (R130, R201). -/
theorem runRequest_fits {r : Nat} {body : List Byte} {len need : Nat} {s : State} (hlen : len ≤ s.par.frameCap)
    (hneed : need ≤ (s.txn r).rbLen) :
    runRequest r body len need s =
      .next (afterSend r (((encodeFrame body s).serialSend (withCrc body)).modifyTxn r Txn.countRequest)) := by
  rw [runRequest, if_neg (by omega), if_neg (by omega), sendRequest_encodeFrame]

theorem runRequest_tooLong {r : Nat} {body : List Byte} {len need : Nat} {s : State} (h : s.par.frameCap < len) :
    runRequest r body len need s = .next (s.raised .encodeOverflow) := by
  rw [runRequest, if_pos h]

theorem runRequest_noBuffer {r : Nat} {body : List Byte} {len need : Nat} {s : State} (hlen : len ≤ s.par.frameCap)
    (h : (s.txn r).rbLen < need) : runRequest r body len need s = .next (s.raised .bufferOutOfBounds) := by
  rw [runRequest, if_neg (by omega), if_pos h]

theorem coilRequestBody_length (f : Byte) (rule : CoilRule) (t : Txn) (entry : Nat → HWord) :
    (coilRequestBody f rule t entry).length = 7 + coilBytes rule t.quantity.toNat := by
  simp [coilRequestBody, headerBytes, coilData]; omega

theorem registerData_length (entry : Nat → HWord) (q : Nat) : (registerData entry q).length = 2 * q := by
  simp [registerData, Nat.mul_comm]

theorem registerRequestBody_length (f : Byte) (t : Txn) (entry : Nat → HWord) :
    (registerRequestBody f t entry).length = 7 + 2 * t.quantity.toNat := by
  simp [registerRequestBody, headerBytes, registerData_length]; omega

/-- Every request is `runRequest` of a body two bytes shorter than its frame. -/
theorem exec_request {i : Instr} {s : State} {r len need : Nat} (hr : s.e.cur = some r)
    (hi : requestShape s.par.coilRule (s.txn r).quantity.toNat i = some (len, need)) :
    ∃ body, body.length + 2 = len ∧ exec i s = runRequest r body len need s := by
  cases i <;> simp only [requestShape, Option.some.injEq, Prod.mk.injEq, reduceCtorEq] at hi
  case reqForceMultipleCoils =>
    obtain ⟨rfl, rfl⟩ := hi
    refine ⟨coilRequestBody 0x0F#8 s.par.coilRule (s.txn r) (s.rbEntry (s.txn r)), ?_, ?_⟩
    · rw [coilRequestBody_length]; omega
    · simp [exec, execReqForceMultipleCoils, withAttempt, hr]
  case reqPresetMultipleRegisters =>
    obtain ⟨rfl, rfl⟩ := hi
    refine ⟨registerRequestBody 0x10#8 (s.txn r) (s.rbEntry (s.txn r)), ?_, ?_⟩
    · rw [registerRequestBody_length]; omega
    · simp [exec, execReqPresetMultipleRegisters, withAttempt, hr]
  all_goals
    obtain ⟨rfl, rfl⟩ := hi
    exact ⟨_, rfl, by simp [exec, execReqReadCoilStatus, execReqReadInputStatus, execReqReadHoldingRegisters,
      execReqReadInputRegisters, readRequest, withAttempt, hr]; rfl⟩

/-- A request that fits and is a broadcast (R202). -/
theorem afterSend_broadcast {r : Nat} {s : State} (h : (s.txn r).slaveId = 0#8) :
    afterSend r s = successHandler r s := by
  rw [afterSend, if_pos h]

theorem afterSend_slave {r : Nat} {s : State} (h : (s.txn r).slaveId ≠ 0#8) : afterSend r s = beginReceive s := by
  rw [afterSend, if_neg h]

/-- The start of the receive phase: the receive state fresh, one reading of the timer; nothing else (R180). -/
theorem beginReceive_eq (s : State) :
    beginReceive s =
      { s.readTimer with
        e := { s.e with phase := .awaitingReply, t0 := s.readTimer.clock, n := 0, ovf := false, polls := 0, outcome := none }
        rxDone := false } := rfl

end Sys2Proof.Machine
end

