-- ==== Sys2Proof/Laws/Step.lean ====
section
/-! SUPPORT. What a step is at each control point, and what the receive loop and the checks decide. -/

namespace Sys2Proof.Machine

/-! ### The timer and the checks -/

theorem State.readTimer_script {s : State} {d : Nat} {ds : List Nat} (h : s.ports.ticks = d :: ds) :
    s.readTimer = { s with ports := { s.ports with ticks := ds, time := s.ports.time + d } } := by
  simp [State.readTimer, Ports.passTime, h]

theorem Ports.passTime_frame (p : Ports) :
    p.passTime = { p with ticks := p.passTime.ticks, time := p.passTime.time, freeUsed := p.passTime.freeUsed } ∧
      p.time ≤ p.passTime.time := by
  simp only [Ports.passTime]; split <;> exact ⟨rfl, Nat.le_add_right _ _⟩

theorem Ports.takePoll_frame (p : Ports) :
    p.takePoll = { p with serialIn := p.serialIn.tail, freeUsed := p.takePoll.freeUsed } := by
  simp only [Ports.takePoll]; split <;> simp [*, Ports.useFree]

theorem crcOk_iff (m : Nat) (s : State) : crcOk m s = true ↔ s.crcHolds m := by
  simp [crcOk, State.crcHolds, State.fbSlice]

theorem crcOk_eq_false_iff (m : Nat) (s : State) : crcOk m s = false ↔ ¬ s.crcHolds m := by
  rw [← crcOk_iff, Bool.not_eq_true]

theorem earlyComplete_iff (s : State) :
    earlyComplete s = true ↔ s.par.earlyPolls ≤ s.e.polls ∧ 5 ≤ s.e.n ∧ s.crcHolds s.e.n := by
  simp only [earlyComplete, Bool.and_eq_true, decide_eq_true_eq, crcOk_iff, and_assoc]

theorem responseTimedOut_iff (s : State) :
    responseTimedOut s = true ↔ s.c.responseTimeoutMs.toNat < (s.clock - s.e.t0).toNat :=
  decide_eq_true_iff

theorem turnaroundOver_iff (s : State) :
    turnaroundOver s = true ↔ s.c.turnaroundDelayMs.toNat < (s.clock - s.e.tt).toNat :=
  decide_eq_true_iff

/-! ### One iteration of the receive loop -/

/-- What the poll of an iteration leaves, before the early check (R182). -/
def polledState (s : State) : State := countPoll (receiveAnswer s.pollAnswer s.polled)

theorem pollOnce_eq (s : State) :
    pollOnce s = { polledState s with rxDone := s.rxDone || earlyComplete (polledState s) } := by
  have h : (polledState s).rxDone = s.rxDone := by
    simp only [polledState, receiveAnswer]
    split
    · rfl
    · split <;> rfl
  simp only [pollOnce]
  change (if earlyComplete (polledState s) then _ else _) = _
  cases earlyComplete (polledState s) <;> simp [State.leaveReceiveLoop, ← h, polledState]

/-- The poll: an answer is consumed and counted; a byte is stored at `E.n` or sets `E.ovf`; nothing else changes. -/
theorem polledState_eq (s : State) :
    polledState s =
      match s.pollAnswer with
      | none => { s with e := { s.e with polls := s.e.polls + 1 }, ports := s.ports.takePoll }
      | some b =>
        if s.e.n < s.par.frameCap then
          { s with e := { s.e with fb := Cells.put unlistedByte s.e.n b s.e.fb, n := s.e.n + 1, polls := s.e.polls + 1 }
                   ports := s.ports.takePoll }
        else { s with e := { s.e with ovf := true, polls := s.e.polls + 1 }, ports := s.ports.takePoll } := by
  rcases h : s.pollAnswer with _ | b
  · simp only [polledState, receiveAnswer, h]; rfl
  · simp only [polledState, receiveAnswer, h]
    by_cases hn : s.e.n < s.par.frameCap
    · exact (congrArg countPoll (if_pos hn)).trans (if_pos hn).symm
    · refine (congrArg countPoll (if_neg hn)).trans (Eq.trans ?_ (if_neg hn).symm)
      have : ovfAfterPoll s.e.ovf s.e.n s.par.frameCap (some b) = true := if_neg hn
      simp only [State.polled_e, State.polled_par, this]; rfl

/-! ### A step at each control point -/

theorem step_faulted {s : State} {f : Fault} (h : s.e.fault = some f) : step s = .fault f := by
  simp [step, h]

theorem step_waiting {s : State} (hf : s.e.fault = none) (hc : s.e.cur = none) (h : s.ports.hostIn = []) :
    step s = .next s := by
  simp [step, fetch, fetchHost, hf, hc, h]

theorem step_store {s : State} {a : Nat} {v : HWord} {rest : List HostInput} (hf : s.e.fault = none)
    (hc : s.e.cur = none) (h : s.ports.hostIn = .store a v :: rest) :
    step s = .next { s.setEntryAt a v with ports := { s.ports with hostIn := rest } } := by
  simp [step, fetch, fetchHost, hf, hc, h]

theorem step_call {s : State} {record : List Byte} {rest : List HostInput} (hf : s.e.fault = none)
    (hc : s.e.cur = none) (h : s.ports.hostIn = .call record :: rest) :
    step s =
      match decode .host record with
      | .ok i => exec i (s.hostTaken rest)
      | .error why => .refused (.undecoded why) := by
  simp only [step, fetch, fetchHost, hf, hc, h]
  cases decode .host record <;> rfl

theorem step_request {s : State} {r : Nat} (h : s.inPhase r .idle) :
    step s =
      match decode .request [(s.txn r).functionCode] with
      | .ok i => exec i s
      | .error why => .refused (.undecoded why) := by
  simp only [step, fetch, h.1, h.2.1, h.2.2]
  cases decode .request [(s.txn r).functionCode] <;> rfl

theorem step_receiving {s : State} {r : Nat} (h : s.receiving r) : step s = .next (receiveIteration s) := by
  obtain ⟨⟨h1, h2, h3⟩, h4⟩ := h
  simp [step, fetch, h1, h2, h3, h4]

theorem decode_reply (f : Byte) : decode .reply [f] = .ok (decodeReplyByte f) := rfl

theorem step_loopOver {s : State} {r : Nat} (h : s.loopOver r) :
    step s =
      if s.e.ovf = true then .next (takeFailure r .receiveOverflow s)
      else if s.e.n < 5 then .next (takeFailure r .receiveTooShort s)
      else if s.fbByte 0 ≠ (s.txn r).slaveId then .next (takeFailure r .unexpectedSlaveId s)
      else if crcOk s.e.n s = false then .next (takeFailure r .checksumMismatch s)
      else exec (decodeReplyByte (s.fbByte 1)) s := by
  obtain ⟨⟨h1, h2, h3⟩, h4⟩ := h
  simp only [step, fetch, h1, h2, h3, h4, exitChecks, if_true]
  split_ifs <;> rfl

theorem step_reply {s : State} {r : Nat} (h : s.replyPasses r) : step s = exec (decodeReplyByte (s.fbByte 1)) s := by
  obtain ⟨hl, h1, h2, h3, h4⟩ := h
  have h5 := (crcOk_iff s.e.n s).mpr h4
  rw [step_loopOver hl]
  simp [h1, Nat.not_lt.mpr h2, h3, h5]

theorem step_turnaround {s : State} {r : Nat} (h : s.inPhase r .turnaroundDelay) :
    step s = .next (turnaroundIteration s) := by
  simp [step, fetch, h.1, h.2.1, h.2.2]

theorem step_done {s : State} {r : Nat} (h : s.inPhase r .done) : step s = .next (finishRun s) := by
  simp [step, fetch, h.1, h.2.1, h.2.2]

/-- Every step is one of these, by the control point. -/
theorem step_points (s : State) :
    (∃ f, s.e.fault = some f) ∨
      (s.e.fault = none ∧ s.e.cur = none ∧ s.ports.hostIn = []) ∨
      (∃ a v rest, s.e.fault = none ∧ s.e.cur = none ∧ s.ports.hostIn = .store a v :: rest) ∨
      (∃ record rest, s.e.fault = none ∧ s.e.cur = none ∧ s.ports.hostIn = .call record :: rest) ∨
      ∃ r, s.inPhase r .idle ∨ s.receiving r ∨ s.loopOver r ∨ s.inPhase r .turnaroundDelay ∨ s.inPhase r .done := by
  rcases hf : s.e.fault with _ | f
  · rcases hc : s.e.cur with _ | r
    · rcases hh : s.ports.hostIn with _ | ⟨_ | _, rest⟩
      · exact .inr (.inl ⟨rfl, rfl, rfl⟩)
      · exact .inr (.inr (.inr (.inl ⟨_, _, rfl, rfl, rfl⟩)))
      · exact .inr (.inr (.inl ⟨_, _, _, rfl, rfl, rfl⟩))
    · refine .inr (.inr (.inr (.inr ⟨r, ?_⟩)))
      rcases hp : s.e.phase
      · exact .inl ⟨hf, hc, hp⟩
      · rcases hr : s.rxDone
        · exact .inr (.inl ⟨⟨hf, hc, hp⟩, hr⟩)
        · exact .inr (.inr (.inl ⟨⟨hf, hc, hp⟩, hr⟩))
      · exact .inr (.inr (.inr (.inl ⟨hf, hc, hp⟩)))
      · exact .inr (.inr (.inr (.inr ⟨hf, hc, hp⟩)))
  · exact .inl ⟨f, rfl⟩

/-! ### Runs -/

theorem runSteps_succ {s t : State} (n : Nat) (h : step s = .next t) : runSteps (n + 1) s = runSteps n t := by
  rw [runSteps, h]

theorem runSteps_one {s t : State} (h : step s = .next t) : runSteps 1 s = .next t := runSteps_succ 0 h

theorem runSteps_add (a b : Nat) {s t : State} (h : runSteps a s = .next t) : runSteps (a + b) s = runSteps b t := by
  induction a generalizing s with
  | zero => rw [runSteps] at h; cases h; rw [Nat.zero_add]
  | succ a ih =>
    rw [Nat.succ_add, runSteps]
    rw [runSteps] at h
    split at h
    · exact ih h
    · cases h
    · cases h

/-- The host's run of the core is this one. -/
theorem core_run_eq (n : Nat) (s : State) : Sys2Proof.core.run n s = runSteps n s := by
  induction n generalizing s with
  | zero => rfl
  | succ n ih =>
    simp only [Host.Core.run]
    rcases h : step s with t | f | w
    · have h' : Sys2Proof.core.step s = .next t := h
      rw [h', runSteps_succ n h]; exact ih t
    · have h' : Sys2Proof.core.step s = .fault f := h
      rw [h', runSteps, h]; rfl
    · have h' : Sys2Proof.core.step s = .refused w := h
      rw [h', runSteps, h]; rfl

/-! ### What a request operation answers -/

/-- A decoded request is one of the six, and its shape is known. -/
theorem decodeRequest_shape {f : Byte} {i : Instr} (h : decode .request [f] = .ok i) (rule : CoilRule) (q : Nat) :
    ∃ len need, requestShape rule q i = some (len, need) := by
  simp only [decode, decodeRequestByte] at h
  split_ifs at h <;> first | (cases h; exact ⟨_, _, rfl⟩)

/-- The decoder knows exactly the supported function codes. -/
theorem decodeRequest_supported {f : Byte} (h : isSupportedFunction f = true) :
    ∃ i, decode .request [f] = .ok i := by
  simp only [isSupportedFunction, Bool.or_eq_true, beq_iff_eq] at h
  rcases h with ((((rfl | rfl) | rfl) | rfl) | rfl) | rfl <;> exact ⟨_, rfl⟩

/-- The class of a reply byte stands in the reply space. -/
theorem decodeReplyByte_space (f : Byte) : (decodeReplyByte f).space = .reply := by
  simp only [decodeReplyByte]; split_ifs <;> rfl

/-- A call decodes to one of the four host operations. -/
theorem decodeHost_space {record : List Byte} {i : Instr} (h : decode .host record = .ok i) : i.space = .host := by
  cases record with
  | nil => simp [decode] at h
  | cons sel ops =>
    simp only [decode, decodeHostCall] at h
    split_ifs at h <;> first | (cases h; rfl)

/-! ### Everything a step can do, at the control points that branch -/

theorem afterSend_cases (r : Nat) (s : State) :
    ((s.txn r).slaveId = 0#8 ∧ afterSend r s = successHandler r s) ∨
      ((s.txn r).slaveId ≠ 0#8 ∧ afterSend r s = beginReceive s) := by
  by_cases h : (s.txn r).slaveId = 0#8
  · exact .inl ⟨h, afterSend_broadcast h⟩
  · exact .inr ⟨h, afterSend_slave h⟩

/-- In IDLE: a model fault, or a request sent and then the success handler (a broadcast) or the receive phase. -/
theorem step_request_cases {s t : State} {r : Nat} (hp : s.inPhase r .idle) (h : step s = .next t) :
    (∃ f, t = s.raised f) ∨
      ∃ body u, u = ((encodeFrame body s).serialSend (withCrc body)).modifyTxn r Txn.countRequest ∧
        (((s.txn r).slaveId = 0#8 ∧ t = successHandler r u) ∨ ((s.txn r).slaveId ≠ 0#8 ∧ t = beginReceive u)) := by
  rw [step_request hp] at h
  rcases hd : decode .request [(s.txn r).functionCode] with w | i
  · rw [hd] at h; cases h
  · rw [hd] at h; simp only at h
    obtain ⟨len, need, hi⟩ := decodeRequest_shape hd s.par.coilRule (s.txn r).quantity.toNat
    obtain ⟨body, hb, hx⟩ := exec_request hp.2.1 hi
    rw [hx, runRequest] at h
    split_ifs at h
    · cases h; exact .inl ⟨_, rfl⟩
    · cases h; exact .inl ⟨_, rfl⟩
    · cases h
      refine .inr ⟨body, _, rfl, ?_⟩
      rw [sendRequest_encodeFrame]
      rcases afterSend_cases r (((encodeFrame body s).serialSend (withCrc body)).modifyTxn r Txn.countRequest) with ⟨h1, h2⟩ | ⟨h1, h2⟩
      · exact .inl ⟨by simpa [Txn.countRequest] using h1, h2⟩
      · exact .inr ⟨by simpa [Txn.countRequest] using h1, h2⟩

/-- After the receive loop: one of the three ends of a reply; the checks fail by the failure path. -/
theorem step_loopOver_cases {s t : State} {r : Nat} (hp : s.loopOver r) (h : step s = .next t) :
    ∃ m, ReplyEnds r m s t := by
  rw [step_loopOver hp] at h
  split_ifs at h
  · cases h; exact ⟨0, .inl ⟨_, s, DataOnly.refl s, rfl, rfl⟩⟩
  · cases h; exact ⟨0, .inl ⟨_, s, DataOnly.refl s, rfl, rfl⟩⟩
  · cases h; exact ⟨0, .inl ⟨_, s, DataOnly.refl s, rfl, rfl⟩⟩
  · cases h; exact ⟨0, .inl ⟨_, s, DataOnly.refl s, rfl, rfl⟩⟩
  · obtain ⟨t', ht', he⟩ := reply_ends (decodeReplyByte_space (s.fbByte 1)) hp.1.2.1
    rw [ht'] at h; cases h
    exact ⟨_, he⟩

/-- A reply is accepted only after every check has passed. -/
theorem step_loopOver_accept {s t u : State} {r : Nat} (hp : s.loopOver r) (h : step s = .next t)
    (ht : t = acceptReply r u) : s.replyPasses r := by
  have hne : ∀ k, acceptReply r u ≠ takeFailure r k s := by
    intro k he
    have := congrArg (fun x => x.e.outcome) he
    simp [acceptReply, successHandler, startTurnaround, State.readTimer, takeFailure, failureHandler] at this
  rw [step_loopOver hp] at h
  subst ht
  split_ifs at h with h1 h2 h3 h4
  · simp only [Host.Outcome.next.injEq] at h; exact absurd h.symm (hne _)
  · simp only [Host.Outcome.next.injEq] at h; exact absurd h.symm (hne _)
  · simp only [Host.Outcome.next.injEq] at h; exact absurd h.symm (hne _)
  · simp only [Host.Outcome.next.injEq] at h; exact absurd h.symm (hne _)
  · exact ⟨hp, by simpa using h1, by omega, by simpa using h3, (crcOk_iff _ _).mp (by simpa using h4)⟩

/-- A call taken at the host port: a model fault, or the effect of the operation its selector names. -/
theorem step_call_cases {s t : State} {record : List Byte} {rest : List HostInput} (hf : s.e.fault = none)
    (hc : s.e.cur = none) (hh : s.ports.hostIn = .call record :: rest) (h : step s = .next t) :
    (∃ f, t = (s.hostTaken rest).raised f) ∨
      (∃ baud framing c, s.takesCall 0x00#8 ∧
        t = { (s.hostTaken rest).serialWrite (.opened baud framing) with c := c, e := { s.e with configured := true } }) ∨
      (∃ k id f a q rb len, s.takesCall 0x01#8 ∧
        t = (s.hostTaken rest).setTxn k (constructedTxn id f a q rb len)) ∨
      (∃ k, s.takesCall 0x02#8 ∧
        t = { s.hostTaken rest with e := { s.e with cur := some k, phase := .idle, outcome := none } }) ∨
      ∃ bytes : List Byte, s.takesCall 0x03#8 ∧
        t = { s.hostTaken rest with ports := { (s.hostTaken rest).ports with hostOut := some (crc16 bytes) } } := by
  rw [step_call hf hc hh] at h
  cases record with
  | nil => simp [decode] at h
  | cons sel ops =>
    have htk : s.takesCall sel := ⟨hf, hc, ops, rest, hh⟩
    simp only [decode, decodeHostCall] at h
    split_ifs at h with h0 h1 h2 h3 h4 h5 h6
    · subst h0; simp only at h; rw [exec_configure (s := s.hostTaken rest) hc] at h; cases h; split
      · exact .inl ⟨_, rfl⟩
      · exact .inr (.inl ⟨_, _, _, htk, rfl⟩)
    · subst h2; simp only at h; rw [exec_construct (s := s.hostTaken rest) hc] at h; cases h; split
      · exact .inr (.inr (.inl ⟨_, _, _, _, _, _, _, htk, rfl⟩))
      · exact .inl ⟨_, rfl⟩
    · subst h4; simp only at h; rw [exec_run (s := s.hostTaken rest) hc] at h; cases h; split
      · exact .inl ⟨_, rfl⟩
      · split
        · exact .inl ⟨_, rfl⟩
        · exact .inr (.inr (.inr (.inl ⟨_, htk, rfl⟩)))
    · subst h6; exact .inr (.inr (.inr (.inr ⟨ops, htk, by cases h; rfl⟩)))

/-- One iteration of the receive loop: what it leaves alone, and the one answer it may take. -/
theorem receiveIteration_frame (s : State) :
    (receiveIteration s).txns = s.txns ∧ (receiveIteration s).c = s.c ∧ (receiveIteration s).e.cur = s.e.cur ∧
      (receiveIteration s).e.phase = s.e.phase ∧ (receiveIteration s).ports.serialOut = s.ports.serialOut ∧
      s.ports.time ≤ (receiveIteration s).ports.time ∧
      ((receiveIteration s).ports.serialIn = s.ports.serialIn ∨
        ∃ a, s.ports.serialIn = a :: (receiveIteration s).ports.serialIn) := by
  have hp1 := (Ports.passTime_frame s.ports)
  have hp2 := Ports.takePoll_frame s.ports.passTime
  have e1 : s.ports.passTime.serialOut = s.ports.serialOut := by rw [hp1.1]
  have e2 : s.ports.passTime.takePoll.serialOut = s.ports.serialOut := by rw [hp2, e1]
  have e3 : s.ports.passTime.serialIn = s.ports.serialIn := by rw [hp1.1]
  have e4 : s.ports.passTime.takePoll.serialIn = s.ports.serialIn.tail := by rw [hp2, e3]
  have e5 : s.ports.passTime.takePoll.time = s.ports.passTime.time := by rw [hp2]
  have e6 : s.ports.serialIn.tail = s.ports.serialIn ∨ ∃ a, s.ports.serialIn = a :: s.ports.serialIn.tail := by
    cases s.ports.serialIn <;> simp
  simp only [receiveIteration]
  split
  · exact ⟨rfl, rfl, rfl, rfl, e1, hp1.2, .inl e3⟩
  · rw [pollOnce_eq, polledState_eq]
    split
    · refine ⟨rfl, rfl, rfl, rfl, e2, by simp only [State.readTimer_ports, e5]; exact hp1.2, by simp only [State.readTimer_ports, e4]; exact e6⟩
    · split
      · refine ⟨rfl, rfl, rfl, rfl, e2, by simp only [State.readTimer_ports, e5]; exact hp1.2, by simp only [State.readTimer_ports, e4]; exact e6⟩
      · refine ⟨rfl, rfl, rfl, rfl, e2, by simp only [State.readTimer_ports, e5]; exact hp1.2, by simp only [State.readTimer_ports, e4]; exact e6⟩

/-- One reading of the turnaround wait: what it leaves alone. -/
theorem turnaroundIteration_frame (s : State) :
    (turnaroundIteration s).txns = s.txns ∧ (turnaroundIteration s).c = s.c ∧
      (turnaroundIteration s).e.cur = s.e.cur ∧
      ((turnaroundIteration s).e.phase = s.e.phase ∨ (turnaroundIteration s).e.phase = .done) ∧
      (turnaroundIteration s).ports.serialOut = s.ports.serialOut ∧
      s.ports.time ≤ (turnaroundIteration s).ports.time ∧
      (turnaroundIteration s).ports.serialIn = s.ports.serialIn := by
  have hp1 := (Ports.passTime_frame s.ports)
  have e1 : s.ports.passTime.serialOut = s.ports.serialOut := by rw [hp1.1]
  have e3 : s.ports.passTime.serialIn = s.ports.serialIn := by rw [hp1.1]
  simp only [turnaroundIteration]
  split
  · exact ⟨rfl, rfl, rfl, .inr rfl, e1, hp1.2, e3⟩
  · exact ⟨rfl, rfl, rfl, .inl rfl, e1, hp1.2, e3⟩

end Sys2Proof.Machine
end

