-- ==== Sys2Proof/Tests/Slice0.lean ====
section
/-! SUPPORT. The model's own tests: ill-formed terms, decoding, vectors of spec/95_test_vectors.md as single steps, and for
every statement of Certificates/Slice0/Obligations.lean that has hypotheses a state and operands that meet them. -/

namespace Sys2Proof.Tests

open Sys2Proof.Machine

/-! ### States for the tests -/

/-- A configured engine with the parameters of spec/95 section 1, a timer that gains 1 ms a reading, and one Transaction. -/
def machine (t : Txn) (phase : Phase) : State :=
  { State.reset with
    par := { frameCap := 100, earlyPolls := 3, coilRule := .source }
    e := { State.reset.e with phase := phase, cur := some 0, configured := true }
    c := configured 9600#32 5#32 2#32 2#32 0 1#32
    txns := [(0, t)]
    ports := { State.reset.ports with ticks := [1, 1, 1, 1] } }

/-- A Transaction just constructed. -/
def txn (id f : Byte) (a q : HWord) (len : Nat) : Txn := constructedTxn id f a q 0 len

/-- A reply received whole: the exit checks come next. -/
def replied (t : Txn) (bytes : List Byte) : State :=
  let s := (machine t .awaitingReply).writeFb 0 bytes
  { s with e := { s.e with n := bytes.length }, rxDone := true }

/-- Between RUNs, with inputs pending. -/
def between (t : Txn) (inputs : List HostInput) : State :=
  let s := machine t .idle
  { s with e := { s.e with cur := none }, ports := { s.ports with hostIn := inputs } }

/-- In the receive loop, with one Transaction that waits for slave 1. -/
def listening (answers : List (Option Byte)) : State :=
  let s := machine (txn 1 3 0 1 1) .awaitingReply
  { s with ports := { s.ports with serialIn := answers } }

/-- What a function of the next state gives, if there is one. -/
def after {α : Type} (f : State → α) (o : Answer) : Option α :=
  match o with
  | .next t => some (f t)
  | .fault _ => none
  | .refused _ => none

theorem next_of_after {α : Type} {f : State → α} {o : Answer} (h : (after f o).isSome = true) : ∃ t, o = .next t := by
  cases o with
  | next t => exact ⟨t, rfl⟩
  | fault _ => simp [after] at h
  | refused _ => simp [after] at h

/-- The outcome, and the first `k` entries of the register buffer at 0. -/
def outcomeAndEntries (k : Nat) (t : State) : Option Resolution × List HWord :=
  (t.e.outcome, (List.range k).map t.entryAt)

/-! ### Ill-formed terms -/

theorem test_wf_refuses_exception_without_bit_7 : (Instr.rplException 0x7F#8).wf = false := by decide
theorem test_wf_refuses_unsupported_with_bit_7 : (Instr.rplUnsupported 0x83#8).wf = false := by decide
theorem test_wf_refuses_unsupported_that_is_supported : (Instr.rplUnsupported 0x03#8).wf = false := by decide
theorem test_wf_refuses_wide_list : (Instr.configure 1 1 1 1 (2 ^ 32) 1).wf = false := by decide
theorem test_wf_refuses_wide_reference : (Instr.construct (2 ^ 32) 1 3 0 1 0 1).wf = false := by decide
theorem test_wf_refuses_wide_buffer : (Instr.construct 0 1 3 0 1 (2 ^ 32) 1).wf = false := by decide
theorem test_wf_refuses_wide_buffer_length : (Instr.construct 0 1 3 0 1 0 (2 ^ 32)).wf = false := by decide
theorem test_wf_refuses_wide_run : (Instr.run (2 ^ 32)).wf = false := by decide

/-! ### Decoding, from the encodings of spec/30_encoding.md R99, R100 and R104 -/

theorem test_decode_requests :
    [0b00000001#8, 0b00000010#8, 0b00000011#8, 0b00000100#8, 0b00001111#8, 0b00010000#8].map
        (fun f => (decode .request [f]).toOption) =
      [some .reqReadCoilStatus, some .reqReadInputStatus, some .reqReadHoldingRegisters, some .reqReadInputRegisters,
        some .reqForceMultipleCoils, some .reqPresetMultipleRegisters] := by decide

theorem test_decode_replies :
    [0b00000001#8, 0b00000010#8, 0b00000011#8, 0b00000100#8, 0b00001111#8, 0b00010000#8].map
        (fun f => (decode .reply [f]).toOption) =
      [some .rplReadCoilStatus, some .rplReadInputStatus, some .rplReadHoldingRegisters, some .rplReadInputRegisters,
        some .rplForceMultipleCoils, some .rplPresetMultipleRegisters] := by decide

/-- The exception class at both ends, the unsupported class at both ends. -/
theorem test_decode_reply_classes :
    [0b10000000#8, 0b11111111#8, 0b00000000#8, 0b01111111#8].map (fun f => (decode .reply [f]).toOption) =
      [some (.rplException 0x80#8), some (.rplException 0xFF#8), some (.rplUnsupported 0x00#8),
        some (.rplUnsupported 0x7F#8)] := by decide

/-- CONFIGURE 9600, 1000, 50, 3, list 7, 2 Transactions. -/
theorem test_decode_configure :
    (decode .host [0x00#8, 0x00#8, 0x00#8, 0x25#8, 0x80#8, 0x00#8, 0x00#8, 0x03#8, 0xE8#8, 0x00#8, 0x00#8, 0x00#8, 0x32#8,
      0x00#8, 0x00#8, 0x00#8, 0x03#8, 0x00#8, 0x00#8, 0x00#8, 0x07#8, 0x00#8, 0x00#8, 0x00#8, 0x02#8]).toOption =
      some (.configure 9600#32 1000#32 50#32 3#32 7 2#32) := by decide

/-- CONSTRUCT 258, slave 0x11, function 3, address 0x006B, quantity 3, buffer at 0x0400, 3 entries. -/
theorem test_decode_construct :
    (decode .host [0x01#8, 0x00#8, 0x00#8, 0x01#8, 0x02#8, 0x11#8, 0x03#8, 0x00#8, 0x6B#8, 0x00#8, 0x03#8, 0x00#8, 0x00#8,
      0x04#8, 0x00#8, 0x00#8, 0x00#8, 0x00#8, 0x03#8]).toOption =
      some (.construct 258 0x11#8 0x03#8 0x006B#16 3#16 1024 3) := by decide

theorem test_decode_run : (decode .host [0x02#8, 0x01#8, 0x00#8, 0x00#8, 0x05#8]).toOption = some (.run 16777221) := by
  decide

theorem test_decode_crc : (decode .host [0x03#8, 0xAA#8, 0x55#8]).toOption = some (.crc [0xAA#8, 0x55#8]) := by decide

/-- Bytes that are no operation: none at all, an unknown request byte, an unknown selector, a call cut short. -/
theorem test_decode_rejects :
    [(decode .host []).toOption, (decode .request [0x05#8]).toOption, (decode .host [0x04#8]).toOption,
      (decode .host [0x02#8, 0x00#8]).toOption] = [none, none, none, none] := by decide

/-- A table word of one byte is a host selector first, then a request, then a reply. -/
theorem test_decodeTableWord :
    [decodeTableWord 8 0x0F, decodeTableWord 8 0x84, decodeTableWord 16 0x03, decodeTableWord 8 0x02] =
      [some .reqForceMultipleCoils, some (.rplException 0x84#8), some .reqReadHoldingRegisters, some (.run 0)] := by decide

/-! ### Vectors of spec/95_test_vectors.md -/

/-- CRC-1, CRC-4, CRC-5, CRC-6. -/
theorem test_crc_vectors :
    [crc16 [], crc16 [0x31, 0x32, 0x33, 0x34, 0x35, 0x36, 0x37, 0x38, 0x39], crc16 [0x11, 0x03, 0x00, 0x6B, 0x00, 0x03],
      crc16 [0x01, 0x03, 0x00, 0x6B, 0x00, 0x03]] = [0xFFFF#16, 0x4B37#16, 0x8776#16, 0x1774#16] := by decide +kernel

/-- HOST-11: CRC as a call at the host port. -/
theorem test_crc_call :
    after (fun t => t.ports.hostOut) (step (between (txn 1 3 0 1 1) [.call [0x03, 0x11, 0x03, 0x00, 0x6B, 0x00, 0x03]])) =
      some (some 0x8776#16) := by decide +kernel

/-- ENC-1. -/
theorem test_request_1 :
    after (fun t => t.ports.serialOut) (step (machine (txn 1 1 0x0013 0x0025 0) .idle)) =
      some [.sent [0x01, 0x01, 0x00, 0x13, 0x00, 0x25, 0x0C, 0x14]] := by decide +kernel

/-- ENC-2. -/
theorem test_request_2 :
    after (fun t => t.ports.serialOut) (step (machine (txn 1 2 0x00C4 0x0016 0) .idle)) =
      some [.sent [0x01, 0x02, 0x00, 0xC4, 0x00, 0x16, 0xB8, 0x39]] := by decide +kernel

/-- ENC-3. -/
theorem test_request_3 :
    after (fun t => t.ports.serialOut) (step (machine (txn 0x11 3 0x006B 3 0) .idle)) =
      some [.sent [0x11, 0x03, 0x00, 0x6B, 0x00, 0x03, 0x76, 0x87]] := by decide +kernel

/-- ENC-5. -/
theorem test_request_4 :
    after (fun t => t.ports.serialOut) (step (machine (txn 1 4 0x0008 1 0) .idle)) =
      some [.sent [0x01, 0x04, 0x00, 0x08, 0x00, 0x01, 0xB0, 0x08]] := by decide +kernel

/-- ENC-9: 20 coils under SOURCE; the high byte of the second entry is not sent. -/
theorem test_request_15 :
    after (fun t => t.ports.serialOut)
        (step (((machine (txn 1 15 0 20 2) .idle).setEntryAt 0 0xBEEF).setEntryAt 1 0x000F)) =
      some [.sent [0x01, 0x0F, 0x00, 0x00, 0x00, 0x14, 0x03, 0xEF, 0xBE, 0x0F, 0x50, 0x24]] := by decide +kernel

/-- ENC-6. -/
theorem test_request_16 :
    after (fun t => t.ports.serialOut)
        (step (((machine (txn 1 16 0 2 2) .idle).setEntryAt 0 0x1234).setEntryAt 1 0x5678)) =
      some [.sent [0x01, 0x10, 0x00, 0x00, 0x00, 0x02, 0x04, 0x12, 0x34, 0x56, 0x78, 0x88, 0x9B]] := by decide +kernel

/-- ENC-F1, ENC-F3, ENC-F4: 46 registers overflow the frame; a short buffer faults. -/
theorem test_request_faults :
    [(txn 1 16 0 46 46), (txn 1 16 0 2 1), (txn 1 15 0 20 1)].map
        (fun t => after (fun u => (u.e.fault, u.ports.serialOut)) (step (machine t .idle))) =
      [some (some .encodeOverflow, []), some (some .bufferOutOfBounds, []), some (some .bufferOutOfBounds, [])] := by
  decide +kernel

/-- DEC-1: 37 coils, low byte of each entry first. -/
theorem test_reply_1 :
    after (outcomeAndEntries 3)
        (step (replied (txn 1 1 0x13 0x25 3) [0x01, 0x01, 0x05, 0xCD, 0x6B, 0xB2, 0x0E, 0x1B, 0x44, 0xEA])) =
      some (some .success, [0x6BCD#16, 0x0EB2#16, 0x001B#16]) := by decide +kernel

/-- DEC-2. -/
theorem test_reply_2 :
    after (outcomeAndEntries 1) (step (replied (txn 1 2 0xC4 8 1) [0x01, 0x02, 0x01, 0x05, 0x61, 0x8B])) =
      some (some .success, [0x0005#16]) := by decide +kernel

/-- DEC-3. -/
theorem test_reply_3 :
    after (outcomeAndEntries 3)
        (step (replied (txn 1 3 0x6B 3 3) [0x01, 0x03, 0x06, 0x02, 0x2B, 0x00, 0x00, 0x00, 0x64, 0x05, 0x7A])) =
      some (some .success, [0x022B#16, 0x0000#16, 0x0064#16]) := by decide +kernel

/-- DEC-4. -/
theorem test_reply_4 :
    after (outcomeAndEntries 1) (step (replied (txn 1 4 8 1 1) [0x01, 0x04, 0x02, 0xAB, 0xCD, 0x07, 0x95])) =
      some (some .success, [0xABCD#16]) := by decide +kernel

/-- DEC-5. -/
theorem test_reply_15 :
    after (fun t => (t.e.outcome, (t.txn 0).receivedCount))
        (step (replied (txn 1 15 0x13 10 1) [0x01, 0x0F, 0x00, 0x13, 0x00, 0x0A, 0x24, 0x09])) =
      some (some .success, 10#16) := by decide +kernel

/-- DEC-6, DEC-13, DEC-14. -/
theorem test_reply_16 :
    [[0x01, 0x10, 0x00, 0x00, 0x00, 0x02, 0x41, 0xC8], [0x01, 0x10, 0x00, 0x01, 0x00, 0x02, 0x10, 0x08],
        [0x01, 0x10, 0x00, 0x00, 0x00, 0x03, 0x80, 0x08]].map
        (fun bytes => after (fun t => t.e.outcome) (step (replied (txn 1 16 0 2 2) bytes))) =
      [some (some .success), some (some (.fail .echoMismatch)), some (some (.fail .echoMismatch))] := by decide +kernel

/-- DEC-7, ENG-4: an exception reply, exceptionErrors and failedRequests by one. -/
theorem test_reply_exception :
    after (fun t => (t.e.outcome, (t.txn 0).exceptionErrors, (t.txn 0).failedRequests, (t.txn 0).successfulRequests))
        (step (replied (txn 1 3 0 1 1) [0x01, 0x83, 0x02, 0xC0, 0xF1])) =
      some (some (.fail .exceptionResponse), 1#32, 1#32, 0#32) := by decide +kernel

/-- DEC-15. -/
theorem test_reply_unsupported :
    after (fun t => t.e.outcome) (step (replied (txn 1 3 0x13 1 1) [0x01, 0x05, 0x00, 0x13, 0xFF, 0x00, 0x7D, 0xFF])) =
      some (some (.fail .unsupportedFunctionInReply)) := by decide +kernel

/-- DEC-8, DEC-18: a byte count that disagrees; a bad CRC before the exception bit. -/
theorem test_reply_failures :
    [[0x01, 0x03, 0x04, 0x12, 0x34, 0x55, 0x32], [0x01, 0x83, 0x02, 0xC0, 0xF2]].map
        (fun bytes => after (outcomeAndEntries 1) (step (replied (txn 1 3 0 1 1) bytes))) =
      [some (some (.fail .replyLengthMismatch), [0#16]), some (some (.fail .checksumMismatch), [0#16])] := by
  decide +kernel

/-- DEC-F1: the fault; nothing is counted. -/
theorem test_reply_past_the_buffer :
    after (fun t => (t.e.fault, t.e.outcome, (t.txn 0).failedRequests))
        (step (replied (txn 1 3 0 50 50) [0x01, 0x03, 0x64, 0x21, 0x1B])) =
      some (some .readBeyondFrame, none, 0#32) := by decide +kernel

/-- HOST-2, and HOST-6. -/
theorem test_configure :
    after (fun t => (t.c.t1_5, t.c.t3_5)) (exec (.configure 9600 20 5 3 0 0) State.reset) = some (1562#32, 3645#32) ∧
      after (fun t => t.e.fault) (exec (.configure 0 20 5 3 0 0) State.reset) = some (some .badBaudRate) := by decide +kernel

/-- HOST-7 and HOST-8. -/
theorem test_construct :
    after (fun t => t.e.fault) (exec (.construct 0 1 5 0x13 1 0 1) (between (txn 1 3 0 1 1) [])) =
        some (some .unsupportedFunctionCode) ∧
      after (fun t => (t.txn 4).slaveId) (exec (.construct 4 248 3 0 0 0 0) (between (txn 1 3 0 1 1) [])) =
        some 248#8 := by decide +kernel

/-- HOST-9 and HOST-10. -/
theorem test_run :
    after (fun t => t.e.fault) (exec (.run 0) State.reset) = some (some .notConfigured) ∧
      after (fun t => t.e.fault) (exec (.run 5) (between (txn 1 3 0 1 1) [])) = some (some .notConstructed) := by
  decide +kernel

/-- From reset, the word placed is what the next step runs: an exception reply, a CONFIGURE at baud rate 0. -/
theorem test_withFetchWord :
    after (fun t => t.e.outcome) (step (State.reset.withFetchWord 8 0x83)) = some (some (.fail .exceptionResponse)) ∧
      after (fun t => t.e.fault) (step (State.reset.withFetchWord 8 0x00)) = some (some .badBaudRate) := by decide +kernel

/-! ### What the hypotheses of the statements can be met by -/

/-- Reads of 3 registers from slave 0x11, in IDLE. -/
def reading : State := machine (txn 0x11 3 0x006B 3 3) .idle

/-- 20 coils to write. -/
def writingCoils : State := machine (txn 1 15 0 20 2) .idle

/-- 45 registers to write, the most that fit: a frame of 99 bytes (ENC-F2). -/
def writingRegisters : State := machine (txn 1 16 0 45 45) .idle

theorem witness_ReadRequestsSendEightBytes :
    (Instr.reqReadHoldingRegisters, 0x03#8) ∈ [(Instr.reqReadCoilStatus, 0x01#8), (Instr.reqReadInputStatus, 0x02#8),
      (Instr.reqReadHoldingRegisters, 0x03#8), (Instr.reqReadInputRegisters, 0x04#8)] ∧
    reading.e.cur = some 0 ∧ 8 ≤ reading.par.frameCap := by decide

theorem witness_CoilRequestSendsItsFrame :
    writingCoils.e.cur = some 0 ∧ 3 = coilBytes writingCoils.par.coilRule (writingCoils.txn 0).quantity.toNat ∧
      9 + 3 ≤ writingCoils.par.frameCap ∧ writingCoils.par.frameCap ≤ 256 ∧
      coilEntries writingCoils.par.coilRule (writingCoils.txn 0).quantity.toNat ≤ (writingCoils.txn 0).rbLen := by decide

theorem witness_RegisterRequestSendsItsFrame :
    writingRegisters.e.cur = some 0 ∧ 45 = (writingRegisters.txn 0).quantity.toNat ∧
      9 + 2 * 45 ≤ writingRegisters.par.frameCap ∧ writingRegisters.par.frameCap ≤ 256 ∧
      45 ≤ (writingRegisters.txn 0).rbLen := by decide

/-- 46 registers: 101 bytes. -/
theorem witness_RequestTooLongRaisesEncodeOverflow :
    (machine (txn 1 16 0 46 46) .idle).e.cur = some 0 ∧
      requestShape .source ((machine (txn 1 16 0 46 46) .idle).txn 0).quantity.toNat .reqPresetMultipleRegisters =
        some (101, 46) ∧
      (machine (txn 1 16 0 46 46) .idle).par = { frameCap := 100, earlyPolls := 3, coilRule := .source } ∧ 100 < 101 := by
  decide

theorem witness_RequestBufferTooSmallRaisesFault :
    (machine (txn 1 15 0 20 1) .idle).e.cur = some 0 ∧
      requestShape (machine (txn 1 15 0 20 1) .idle).par.coilRule
        ((machine (txn 1 15 0 20 1) .idle).txn 0).quantity.toNat .reqForceMultipleCoils = some (12, 2) ∧
      12 ≤ (machine (txn 1 15 0 20 1) .idle).par.frameCap ∧ ((machine (txn 1 15 0 20 1) .idle).txn 0).rbLen < 2 := by decide

theorem witness_BroadcastSkipsTheReply :
    (machine (txn 0 16 0 2 2) .idle).e.cur = some 0 ∧
      requestShape (machine (txn 0 16 0 2 2) .idle).par.coilRule
        ((machine (txn 0 16 0 2 2) .idle).txn 0).quantity.toNat .reqPresetMultipleRegisters = some (13, 2) ∧
      13 ≤ (machine (txn 0 16 0 2 2) .idle).par.frameCap ∧ 2 ≤ ((machine (txn 0 16 0 2 2) .idle).txn 0).rbLen ∧
      ((machine (txn 0 16 0 2 2) .idle).txn 0).slaveId = 0#8 := by decide

theorem witness_RequestOpensTheReceivePhase :
    writingCoils.e.cur = some 0 ∧
      requestShape writingCoils.par.coilRule (writingCoils.txn 0).quantity.toNat .reqForceMultipleCoils = some (12, 2) ∧
      12 ≤ writingCoils.par.frameCap ∧ 2 ≤ (writingCoils.txn 0).rbLen ∧ (writingCoils.txn 0).slaveId ≠ 0#8 := by decide

theorem witness_RequestsChangeNothingElse :
    reading.e.cur = some 0 ∧
      requestShape reading.par.coilRule (reading.txn 0).quantity.toNat .reqReadHoldingRegisters = some (8, 0) ∧
      ∃ t, exec .reqReadHoldingRegisters reading = .next t :=
  ⟨by decide, by decide, next_of_after (f := fun t => t.e.phase) (by decide +kernel)⟩

/-- Both ends of the exception class. -/
theorem witness_ExceptionReplyFailsTheAttempt :
    reading.e.cur = some 0 ∧ (0x80#8).getLsbD 7 = true ∧ (0xFF#8).getLsbD 7 = true := by decide

/-- Both ends of the unsupported class, and a byte between the six. -/
theorem witness_UnsupportedReplyFailsTheAttempt :
    reading.e.cur = some 0 ∧ ∀ f ∈ [0x00#8, 0x05#8, 0x7F#8],
      f.getLsbD 7 = false ∧ f ∉ [0x01#8, 0x02#8, 0x03#8, 0x04#8, 0x0F#8, 0x10#8] := by decide

/-- The reply of DEC-3. -/
def registersReplied : State :=
  replied (txn 1 3 0x6B 3 3) [0x01, 0x03, 0x06, 0x02, 0x2B, 0x00, 0x00, 0x00, 0x64, 0x05, 0x7A]

/-- The reply of DEC-12: 20 coils, a lone last byte. -/
def coilsReplied : State := replied (txn 1 1 0 20 2) [0x01, 0x01, 0x03, 0xEF, 0xBE, 0x0F, 0x3C, 0x1F]

/-- The reply of DEC-6. -/
def echoReplied : State := replied (txn 1 16 0 2 2) [0x01, 0x10, 0x00, 0x00, 0x00, 0x02, 0x41, 0xC8]

theorem witness_RegisterReplyStoresTheRegisters :
    Instr.rplReadHoldingRegisters ∈ [Instr.rplReadHoldingRegisters, Instr.rplReadInputRegisters] ∧
      registersReplied.e.cur = some 0 ∧ 3 = (registersReplied.txn 0).quantity.toNat ∧ 2 < registersReplied.e.n ∧
      (registersReplied.fbByte 2).toNat = 2 * 3 ∧ 3 ≤ (registersReplied.txn 0).rbLen ∧
      3 + 2 * 3 ≤ registersReplied.par.frameCap ∧ 4 + 2 * 2 < registersReplied.e.n := by decide

theorem witness_CoilReplyStoresTheCoils :
    Instr.rplReadCoilStatus ∈ [Instr.rplReadCoilStatus, Instr.rplReadInputStatus] ∧ coilsReplied.e.cur = some 0 ∧
      3 = coilBytes coilsReplied.par.coilRule (coilsReplied.txn 0).quantity.toNat ∧
      2 = coilEntries coilsReplied.par.coilRule (coilsReplied.txn 0).quantity.toNat ∧ 2 < coilsReplied.e.n ∧
      (coilsReplied.fbByte 2).toNat = 3 ∧ 2 ≤ (coilsReplied.txn 0).rbLen ∧ 3 + 3 ≤ coilsReplied.par.frameCap ∧
      (2 * 0 + 1 < 3 ∧ 4 + 2 * 0 < coilsReplied.e.n) ∧ (2 * 1 + 1 = 3 ∧ 3 + 2 * 1 < coilsReplied.e.n) := by decide

theorem witness_EchoReplyThatMatchesSucceeds :
    Instr.rplPresetMultipleRegisters ∈ [Instr.rplForceMultipleCoils, Instr.rplPresetMultipleRegisters] ∧
      echoReplied.e.cur = some 0 ∧ 5 < echoReplied.e.n ∧
      be16 (echoReplied.fbByte 2) (echoReplied.fbByte 3) = (echoReplied.txn 0).startAddress ∧
      be16 (echoReplied.fbByte 4) (echoReplied.fbByte 5) = (echoReplied.txn 0).quantity := by decide

/-- DEC-22 (five bytes, the address differs) and DEC-14 (the quantity differs). -/
theorem witness_EchoReplyThatDiffersFails :
    (let s := replied (txn 1 16 0 0 0) [0x01, 0x10, 0x00, 0x2D, 0xC0]
     s.e.cur = some 0 ∧ 6 ≤ s.par.frameCap ∧ 3 < s.e.n ∧ be16 (s.fbByte 2) (s.fbByte 3) ≠ (s.txn 0).startAddress) ∧
    (let s := replied (txn 1 16 0 2 2) [0x01, 0x10, 0x00, 0x00, 0x00, 0x03, 0x80, 0x08]
     s.e.cur = some 0 ∧ 6 ≤ s.par.frameCap ∧ 5 < s.e.n ∧ be16 (s.fbByte 4) (s.fbByte 5) ≠ (s.txn 0).quantity) := by
  decide

/-- DEC-9: two bytes for two registers. -/
theorem witness_ReplyLengthMismatchFails :
    let s := replied (txn 1 3 0 2 2) [0x01, 0x03, 0x02, 0x12, 0x34, 0xB5, 0x33]
    (Instr.rplReadHoldingRegisters, 4) ∈
        [(Instr.rplReadCoilStatus, coilBytes s.par.coilRule (s.txn 0).quantity.toNat),
          (Instr.rplReadInputStatus, coilBytes s.par.coilRule (s.txn 0).quantity.toNat),
          (Instr.rplReadHoldingRegisters, 2 * (s.txn 0).quantity.toNat),
          (Instr.rplReadInputRegisters, 2 * (s.txn 0).quantity.toNat)] ∧
      s.e.cur = some 0 ∧ 2 < s.e.n ∧ (s.fbByte 2).toNat ≠ 4 := by decide

/-- DEC-23: two registers, one entry. -/
theorem witness_ReplyBufferTooSmallRaisesFault :
    let s := replied (txn 1 3 0 2 1) [0x01, 0x03, 0x04, 0x00, 0x01, 0x00, 0x02]
    (Instr.rplReadHoldingRegisters, 4) ∈
        [(Instr.rplReadCoilStatus, coilBytes s.par.coilRule (s.txn 0).quantity.toNat),
          (Instr.rplReadInputStatus, coilBytes s.par.coilRule (s.txn 0).quantity.toNat),
          (Instr.rplReadHoldingRegisters, 2 * (s.txn 0).quantity.toNat),
          (Instr.rplReadInputRegisters, 2 * (s.txn 0).quantity.toNat)] ∧
      s.e.cur = some 0 ∧ 2 < s.e.n ∧ (s.fbByte 2).toNat = 4 ∧
      (s.txn 0).rbLen < replyEntries s.par.coilRule (s.txn 0).quantity.toNat .rplReadHoldingRegisters := by decide

/-- DEC-F1, with a register received (the first) and a register not reached (the 49th); 98 coil bytes, one too many. -/
theorem witness_ReplyPastTheBufferRaisesFault :
    (let s := replied (txn 1 3 0 50 50) [0x01, 0x03, 0x64, 0x21, 0x1B]
     Instr.rplReadHoldingRegisters ∈ [Instr.rplReadHoldingRegisters, Instr.rplReadInputRegisters] ∧ s.e.cur = some 0 ∧
      50 = (s.txn 0).quantity.toNat ∧ 2 < s.e.n ∧ s.e.n ≤ s.par.frameCap ∧ (s.fbByte 2).toNat = 2 * 50 ∧
      50 ≤ (s.txn 0).rbLen ∧ s.par.frameCap < 3 + 2 * 50 ∧ 4 + 2 * 0 < s.e.n ∧ s.par.frameCap ≤ 4 + 2 * 48) ∧
    (let s := replied (txn 1 1 0 784 49) [0x01, 0x01, 0x62, 0x00, 0x00]
     Instr.rplReadCoilStatus ∈ [Instr.rplReadCoilStatus, Instr.rplReadInputStatus] ∧ s.e.cur = some 0 ∧
      98 = coilBytes s.par.coilRule (s.txn 0).quantity.toNat ∧ 2 < s.e.n ∧ s.e.n ≤ s.par.frameCap ∧
      (s.fbByte 2).toNat = 98 ∧ coilEntries s.par.coilRule (s.txn 0).quantity.toNat ≤ (s.txn 0).rbLen ∧
      s.par.frameCap < 3 + 98) := by decide

theorem witness_FailedReplyLeavesNoPartialResult :
    (Instr.rplException 0x83#8).space = .reply ∧ registersReplied.e.cur = some 0 ∧ registersReplied.e.outcome = none ∧
      ∃ t, exec (.rplException 0x83#8) registersReplied = .next t ∧ t.e.outcome = some (.fail .exceptionResponse) :=
  ⟨rfl, rfl, rfl, _, rfl, rfl⟩

theorem witness_RepliesChangeNothingElse :
    Instr.rplReadHoldingRegisters.space = .reply ∧ registersReplied.e.cur = some 0 ∧
      ∃ t, exec .rplReadHoldingRegisters registersReplied = .next t :=
  ⟨rfl, rfl, next_of_after (f := fun t => t.e.phase) (by decide +kernel)⟩

/-- The reading that shows 6 ms, one more than the timeout. -/
theorem witness_ReceiveLoopEndsAtTheTimeout :
    let s := { listening [] with ports := { (listening []).ports with ticks := [6] } }
    s.receiving 0 ∧ s.ports.ticks = [6] ∧ s.c.responseTimeoutMs.toNat < (s.nextReading 6 - s.e.t0).toNat :=
  ⟨⟨⟨rfl, rfl, rfl⟩, rfl⟩, rfl, by decide⟩

/-- The reading that shows exactly the timeout still polls. -/
theorem witness_PolledByteIsStored :
    let s := { listening [some 0x01#8] with ports := { (listening [some 0x01#8]).ports with ticks := [5] } }
    s.receiving 0 ∧ s.ports.ticks = [5] ∧ (s.nextReading 5 - s.e.t0).toNat ≤ s.c.responseTimeoutMs.toNat ∧
      s.ports.serialIn = [some 0x01#8] ∧ s.e.n < s.par.frameCap :=
  ⟨⟨⟨rfl, rfl, rfl⟩, rfl⟩, rfl, by decide, rfl, by decide⟩

/-- A full buffer. -/
theorem witness_ByteBeyondCapacitySetsOverflow :
    let s := { listening [some 0x01#8] with e := { (listening []).e with n := 100 } }
    s.receiving 0 ∧ s.ports.ticks = [1, 1, 1, 1] ∧ (s.nextReading 1 - s.e.t0).toNat ≤ s.c.responseTimeoutMs.toNat ∧
      s.ports.serialIn = [some 0x01#8] ∧ s.e.n = s.par.frameCap :=
  ⟨⟨⟨rfl, rfl, rfl⟩, rfl⟩, rfl, by decide, rfl, rfl⟩

theorem witness_EmptyPollOnlyCounts :
    (listening [none]).receiving 0 ∧ (listening [none]).ports.ticks = [1, 1, 1, 1] ∧
      ((listening [none]).nextReading 1 - (listening [none]).e.t0).toNat ≤ (listening [none]).c.responseTimeoutMs.toNat ∧
      (listening [none]).ports.serialIn = [none] :=
  ⟨⟨⟨rfl, rfl, rfl⟩, rfl⟩, rfl, by decide, rfl⟩

/-- RX-1: with the seventh byte the CRC holds and the loop ends early; before it the loop goes on. -/
theorem test_early_completion :
    let six := (listening [some 0x86#8]).writeFb 0 [0x01, 0x03, 0x02, 0x00, 0x07, 0xF9]
    let s := { six with e := { six.e with n := 6, polls := 6 } }
    after (fun t => (t.e.n, t.e.polls, t.rxDone)) (step s) = some (7, 7, true) ∧
      after (fun t => (t.e.n, t.e.polls, t.rxDone)) (step { s with ports := { s.ports with serialIn := [none] } }) =
        some (6, 7, false) := by decide +kernel

theorem witness_ReceiveLoopOnlyFillsTheFrame :
    (listening [some 0x01#8]).receiving 0 ∧ ∃ t, step (listening [some 0x01#8]) = .next t :=
  ⟨⟨⟨rfl, rfl, rfl⟩, rfl⟩, next_of_after (f := fun t => t.e.n) (by decide +kernel)⟩

/-- Each check at its boundary: overflow; four bytes; five bytes from slave 2; five bytes from slave 1 with a bad CRC. -/
theorem witness_ExitChecksFailInOrder :
    let full := replied (txn 1 3 0 1 1) [0x01, 0x83, 0x02, 0xC0, 0xF1]
    let overflowed := { full with e := { full.e with ovf := true } }
    let short := replied (txn 1 3 0 1 1) [0x01, 0x03, 0x02, 0x00]
    let other := replied (txn 1 3 0 1 1) [0x02, 0x83, 0x02, 0x30, 0xF1]
    let bad := replied (txn 1 3 0 1 1) [0x01, 0x83, 0x02, 0xC0, 0xF2]
    (overflowed.loopOver 0 ∧ overflowed.e.ovf = true) ∧ (short.loopOver 0 ∧ short.e.ovf = false ∧ short.e.n < 5) ∧
      (other.loopOver 0 ∧ other.e.ovf = false ∧ 5 ≤ other.e.n ∧ other.fbByte 0 ≠ (other.txn 0).slaveId) ∧
      (bad.loopOver 0 ∧ bad.e.ovf = false ∧ 5 ≤ bad.e.n ∧ bad.fbByte 0 = (bad.txn 0).slaveId ∧
        ¬ bad.crcHolds bad.e.n) :=
  ⟨⟨⟨⟨rfl, rfl, rfl⟩, rfl⟩, rfl⟩, ⟨⟨⟨rfl, rfl, rfl⟩, rfl⟩, rfl, by decide⟩,
    ⟨⟨⟨rfl, rfl, rfl⟩, rfl⟩, rfl, by decide, by decide⟩,
    ⟨⟨⟨rfl, rfl, rfl⟩, rfl⟩, rfl, by decide, by decide, by unfold State.crcHolds; decide +kernel⟩⟩

/-- A reply that passes every check. -/
theorem registersReplied_passes : registersReplied.replyPasses 0 :=
  ⟨⟨⟨rfl, rfl, rfl⟩, rfl⟩, rfl, by decide, by decide, by unfold State.crcHolds; decide +kernel⟩

/-- The three ways an operation comes to run. -/
theorem witness_StepRunsTheDecodedOperation :
    (let s := between (txn 1 3 0 1 1) [.call [0x02, 0x00, 0x00, 0x00, 0x00]]
     s.e.fault = none ∧ s.e.cur = none ∧ s.ports.hostIn = [.call [0x02, 0x00, 0x00, 0x00, 0x00]] ∧
      decode .host [0x02, 0x00, 0x00, 0x00, 0x00] = .ok (.run 0)) ∧
    (reading.inPhase 0 .idle ∧ decode .request [(reading.txn 0).functionCode] = .ok .reqReadHoldingRegisters) ∧
    (registersReplied.replyPasses 0 ∧ decode .reply [registersReplied.fbByte 1] = .ok .rplReadHoldingRegisters) :=
  ⟨⟨rfl, rfl, rfl, rfl⟩, ⟨⟨rfl, rfl, rfl⟩, rfl⟩, registersReplied_passes, rfl⟩

/-- The last reading of the interval (2 ms) and the first past it (3 ms). -/
theorem witness_TurnaroundWaitsForTheInterval :
    let s := fun d : Nat =>
      { machine (txn 1 3 0 1 1) .turnaroundDelay with
        ports := { (machine (txn 1 3 0 1 1) .turnaroundDelay).ports with ticks := [d] } }
    ((s 3).inPhase 0 .turnaroundDelay ∧ (s 3).ports.ticks = [3] ∧
      (s 3).c.turnaroundDelayMs.toNat < ((s 3).nextReading 3 - (s 3).e.tt).toNat) ∧
    ((s 2).inPhase 0 .turnaroundDelay ∧ (s 2).ports.ticks = [2] ∧
      ((s 2).nextReading 2 - (s 2).e.tt).toNat ≤ (s 2).c.turnaroundDelayMs.toNat) :=
  ⟨⟨⟨rfl, rfl, rfl⟩, rfl, by decide⟩, ⟨rfl, rfl, rfl⟩, rfl, by decide⟩

theorem witness_DoneReturnsControl : (machine (txn 1 3 0 1 1) .done).inPhase 0 .done := ⟨rfl, rfl, rfl⟩

/-- With maxRetries = 2: one failure, and two. -/
theorem witness_ConsecutiveFailuresReachTheCeiling :
    (reading.txn 0).retries = 0#32 ∧ 1 ≤ reading.c.maxRetries.toNat ∧
      [ErrorKind.receiveTooShort].length < reading.c.maxRetries.toNat ∧
      [ErrorKind.receiveTooShort, ErrorKind.exceptionResponse].length = reading.c.maxRetries.toNat := by decide

theorem witness_ConfigureStoresTheRegisters : (between (txn 1 3 0 1 1) []).e.cur = none ∧ 1#32 ≠ 0#32 := by decide

theorem witness_ConfigureAtZeroBaudRaisesFault : State.reset.e.cur = none := rfl

theorem witness_ConstructInitialisesTheRecord :
    State.reset.e.cur = none ∧ 0x10#8 ∈ [0x01#8, 0x02#8, 0x03#8, 0x04#8, 0x0F#8, 0x10#8] := ⟨rfl, by decide⟩

theorem witness_ConstructUnsupportedRaisesFault :
    State.reset.e.cur = none ∧ 0x05#8 ∉ [0x01#8, 0x02#8, 0x03#8, 0x04#8, 0x0F#8, 0x10#8] := ⟨rfl, by decide⟩

theorem witness_RunStartsAnAttempt :
    let s := between (txn 1 3 0 1 1) []
    s.e.cur = none ∧ s.e.configured = true ∧ (s.txn 0).constructed = true := by decide

theorem witness_RunTooEarlyRaisesFault :
    (State.reset.e.cur = none ∧ State.reset.e.configured = false) ∧
      (let s := between (txn 1 3 0 1 1) []
       s.e.cur = none ∧ s.e.configured = true ∧ (s.txn 1).constructed = false) := ⟨⟨rfl, rfl⟩, by decide⟩

theorem witness_HostOperationDuringRunIsNoMove :
    reading.e.cur = some 0 ∧ (Instr.run 0).space = .host ∧ ∀ bytes, Instr.run 0 ≠ .crc bytes :=
  ⟨rfl, rfl, fun _ h => nomatch h⟩

theorem witness_CallerStoreChangesOneEntry :
    let s := between (txn 1 3 0 1 1) [.store 0 0x1111]
    s.e.fault = none ∧ s.e.cur = none ∧ s.ports.hostIn = [.store 0 0x1111] := ⟨rfl, rfl, rfl⟩

/-- A state with the invariant in the middle of an attempt. -/
theorem reading_inv : reading.Inv where
  params := by decide
  memory := by decide
  frame := by decide
  received := by decide
  encoded := by decide
  overflow := by decide
  between := by decide
  loopLeft := by decide
  driven := fun r h => by
    have : r = 0 := (Option.some.inj h).symm
    subst this; decide
  records := by decide

theorem witness_EveryStepKeepsTheInvariant : reading.Inv ∧ ∃ t, step reading = .next t :=
  ⟨reading_inv, next_of_after (f := fun t => t.e.phase) (by decide +kernel)⟩

/-- A step that goes on, and bytes at the host port that are no call. -/
theorem witness_EngineIsNeverStuck :
    (reading.Inv ∧ reading.Safe) ∧
      (let s := between (txn 1 3 0 1 1) [.call [0xFF]]
       s.Safe ∧ s.e.cur = none ∧ step s = .refused (.undecoded (.unknownSelector 0xFF))) :=
  ⟨⟨reading_inv, rfl⟩, rfl, rfl, rfl⟩

theorem witness_FaultIsFinal : (reading.raised .encodeOverflow).e.fault = some .encodeOverflow := rfl

/-- A step into each phase, from the phase before it: to AWAITING_REPLY, a broadcast's to TURNAROUND_DELAY, from
AWAITING_REPLY to TURNAROUND_DELAY, to DONE, to IDLE. -/
theorem witness_PhaseOnlyMovesForward :
    [reading, machine (txn 0 3 0 1 1) .idle, replied (txn 1 3 0 1 1) [0x01],
        { machine (txn 1 3 0 1 1) .turnaroundDelay with ports := { State.reset.ports with ticks := [3] } },
        machine (txn 1 3 0 1 1) .done].map (fun s => (s.e.cur, after (fun t => (t.e.phase, t.e.cur)) (step s))) =
      [(some 0, some (.awaitingReply, some 0)), (some 0, some (.turnaroundDelay, some 0)),
        (some 0, some (.turnaroundDelay, some 0)), (some 0, some (.done, some 0)), (some 0, some (.idle, none))] := by
  decide +kernel

theorem witness_NothingIsSentWhileAwaitingOrTurning :
    (listening [none]).e.cur = some 0 ∧ (listening [none]).e.phase ≠ .idle ∧ ∃ t, step (listening [none]) = .next t :=
  ⟨rfl, by decide, next_of_after (f := fun t => t.e.n) (by decide +kernel)⟩

/-- A counter incremented, and a counter set to 0 by CONSTRUCT. -/
theorem witness_CountersAreOnlyIncremented :
    Txn.requestsIssued ∈ [Txn.requestsIssued, Txn.successfulRequests, Txn.failedRequests, Txn.exceptionErrors] ∧
      after (fun t => (t.txn 0).requestsIssued) (step reading) = some 1#32 ∧
      after (fun t => (t.txn 0).requestsIssued)
        (step (between { txn 1 3 0 1 1 with requestsIssued := 7#32 }
          [.call [0x01, 0, 0, 0, 0, 0x01, 0x03, 0, 0, 0, 1, 0, 0, 0, 0, 0, 0, 0, 1]])) = some 0#32 :=
  ⟨List.mem_cons_self, by decide +kernel, by decide +kernel⟩

/-- CONSTRUCT on a Transaction that is not active. -/
theorem witness_OnlyConstructActivatesATransaction :
    let s := between { txn 1 3 0 1 1 with connectionActive := false }
      [.call [0x01, 0, 0, 0, 0, 0x01, 0x03, 0, 0, 0, 1, 0, 0, 0, 0, 0, 0, 0, 1]]
    (s.txn 0).connectionActive = false ∧ after (fun t => (t.txn 0).connectionActive) (step s) = some true := by
  decide +kernel

/-- By a reply accepted, and by CONSTRUCT. -/
theorem witness_ReceivedCountOnlyBySuccess :
    ((registersReplied.txn 0).receivedCount = 0#16 ∧
      after (fun t => (t.txn 0).receivedCount) (step registersReplied) = some 3#16) ∧
    after (fun t => (t.txn 0).receivedCount)
      (step (between { txn 1 3 0 1 1 with receivedCount := 9#16 }
        [.call [0x01, 0, 0, 0, 0, 0x01, 0x03, 0, 0, 0, 1, 0, 0, 0, 0, 0, 0, 0, 1]])) = some 0#16 := by decide +kernel

/-- CONFIGURE at 19200. -/
theorem witness_OnlyConfigureWritesTheConfiguration :
    let s := between (txn 1 3 0 1 1)
      [.call [0x00, 0, 0, 0x4B, 0, 0, 0, 0, 20, 0, 0, 0, 5, 0, 0, 0, 3, 0, 0, 0, 0, 0, 0, 0, 1]]
    s.c.baudRate = 9600#32 ∧ after (fun t => t.c.baudRate) (step s) = some 19200#32 := by decide +kernel

/-- An answer taken by the receive loop, and none taken by a send. -/
theorem witness_SerialInputIsNeverFlushed :
    after (fun t => t.ports.serialIn) (step (listening [some 0x01#8, none])) = some [none] ∧
      after (fun t => t.ports.serialIn) (step { reading with ports := { reading.ports with serialIn := [none] } }) =
        some [none] := by decide +kernel

theorem witness_TimeNeverRunsBackwards :
    after (fun t => t.ports.time) (step (listening [none])) = some 1 := by decide +kernel

theorem witness_DecodeOfEncodeIsTheOperation :
    (Instr.rplException 0x80#8).wf = true ∧ (Instr.rplUnsupported 0x7F#8).wf = true ∧
      (Instr.run (2 ^ 32 - 1)).wf = true ∧ (Instr.crc []).wf = true := by decide

/-- The registers of S3. -/
theorem witness_RegisterReadRoundTrip :
    let s := registersReplied
    let vs := [0x022B#16, 0x0000#16, 0x0064#16]
    s.loopOver 0 ∧ s.e.ovf = false ∧ (s.txn 0).quantity.toNat = vs.length ∧ vs.length ≤ (s.txn 0).rbLen ∧
      s.par.frameCap ≤ 256 ∧ s.e.n = 5 + 2 * vs.length ∧ s.e.n ≤ s.par.frameCap ∧
      ∀ k, k < s.e.n → s.fbByte k =
        (withCrc ([(s.txn 0).slaveId, 0x03#8, BitVec.ofNat 8 (2 * vs.length)] ++
          vs.flatMap fun v => [hi v, lo v])).getD k 0#8 :=
  ⟨⟨⟨rfl, rfl, rfl⟩, rfl⟩, rfl, by decide, by decide, by decide, by decide, by decide, by decide +kernel⟩

/-- A broadcast with a turnaround interval of 2: a read, and the largest function 16 write that fits the frame buffer
and its register buffer exactly. -/
theorem witness_BroadcastRunCompletes :
    (let s := between (txn 0 3 0 1 1) [.call [0x02, 0, 0, 0, 0]]
     s.Safe ∧ s.e.cur = none ∧ s.e.configured = true ∧ (s.txn 0).constructed = true ∧ (s.txn 0).slaveId = 0#8 ∧
      decode .request [(s.txn 0).functionCode] = .ok .reqReadHoldingRegisters ∧
      requestShape s.par.coilRule (s.txn 0).quantity.toNat .reqReadHoldingRegisters = some (8, 0) ∧
      8 ≤ s.par.frameCap ∧ 0 ≤ (s.txn 0).rbLen ∧ decode .host [0x02, 0, 0, 0, 0] = .ok (.run 0) ∧
      s.ports.hostIn = .call [0x02, 0, 0, 0, 0] :: [] ∧ 2 = s.c.turnaroundDelayMs.toNat ∧ 2 < 2 ^ 32 - 1 ∧
      s.ports.ticks = List.replicate (2 + 2) 1 ++ []) ∧
    (let s := between (txn 0 16 0 45 45) [.call [0x02, 0, 0, 0, 0]]
     s.Safe ∧ s.e.cur = none ∧ s.e.configured = true ∧ (s.txn 0).constructed = true ∧ (s.txn 0).slaveId = 0#8 ∧
      decode .request [(s.txn 0).functionCode] = .ok .reqPresetMultipleRegisters ∧
      requestShape s.par.coilRule (s.txn 0).quantity.toNat .reqPresetMultipleRegisters = some (99, 45) ∧
      99 ≤ s.par.frameCap ∧ 45 ≤ (s.txn 0).rbLen ∧ decode .host [0x02, 0, 0, 0, 0] = .ok (.run 0) ∧
      s.ports.hostIn = .call [0x02, 0, 0, 0, 0] :: [] ∧ 2 = s.c.turnaroundDelayMs.toNat ∧ 2 < 2 ^ 32 - 1 ∧
      s.ports.ticks = List.replicate (2 + 2) 1 ++ []) :=
  ⟨⟨rfl, rfl, rfl, rfl, rfl, rfl, rfl, by decide, by decide, rfl, rfl, rfl, by decide, rfl⟩,
    ⟨rfl, rfl, rfl, rfl, rfl, rfl, rfl, by decide, by decide, rfl, rfl, rfl, by decide, rfl⟩⟩

/-- Six readings for a timeout of 5, no byte. -/
theorem witness_SilentSlaveEndsInReceiveTooShort :
    let l := listening (List.replicate 5 none)
    let s := { l with ports := { l.ports with ticks := [1, 1, 1, 1, 1, 1] } }
    s.receiving 0 ∧ 5 = s.c.responseTimeoutMs.toNat ∧ 5 < 2 ^ 32 - 1 ∧ s.e.t0 = s.clock ∧ s.e.n = 0 ∧
      s.e.ovf = false ∧ s.ports.ticks = List.replicate (5 + 1) 1 ++ [] ∧
      s.ports.serialIn = List.replicate 5 none ++ [] :=
  ⟨⟨⟨rfl, rfl, rfl⟩, rfl⟩, rfl, by decide, rfl, rfl, rfl, rfl, rfl⟩

end Sys2Proof.Tests
end

section
/-! The invariant, kept by every update the machine makes and so by every step (R9, R20, R22, R60, R182, R200). -/

namespace Sys2Proof.Machine

variable {s t u : State} {r : Nat}

/-! ### Updates that leave the control point alone -/

theorem State.Inv.withPorts (h : s.Inv) (p : Ports) : State.Inv { s with ports := p } := { h with }

theorem State.Inv.raised (h : s.Inv) (f : Fault) : (s.raised f).Inv := { h with }

theorem State.Inv.serialSend (h : s.Inv) (bytes : List Byte) : (s.serialSend bytes).Inv := { h with }

theorem State.Inv.withOutcome (h : s.Inv) (o : Option Resolution) :
    State.Inv { s with e := { s.e with outcome := o } } := { h with }

theorem State.Inv.setEntryAt (h : s.Inv) (a : Nat) (v : HWord) : (s.setEntryAt a v).Inv :=
  { h with memory := Memory.wf_setEntryAt a v s h.memory }

theorem DataOnly.inv (d : DataOnly s u) (h : s.Inv) : u.Inv where
  params := d.par ▸ h.params
  memory := by
    obtain ⟨hfb, hregs, htxns⟩ := (Memory.wf_iff s).mp h.memory
    exact (Memory.wf_iff u).mpr ⟨d.e ▸ hfb, d.wf hregs, d.txns ▸ htxns⟩
  frame := by rw [d.e, d.par]; exact h.frame
  received := by rw [d.e, d.par]; exact h.received
  encoded := by rw [d.e, d.par]; exact h.encoded
  overflow := by rw [d.e, d.par]; exact h.overflow
  between := by rw [d.e]; exact h.between
  loopLeft := by rw [d.e, d.rxDone]; exact h.loopLeft
  driven k := by rw [d.e, d.txn]; exact h.driven k
  records := by rw [d.txns]; exact h.records

/-- CONFIGURE's update (R233). -/
theorem State.Inv.configure (h : s.Inv) (c : Configuration) (o : SerialOut) :
    State.Inv { s.serialWrite o with c := c, e := { s.e with configured := true } } :=
  { h with driven := fun k hk => ⟨rfl, (h.driven k hk).2⟩ }

/-! ### Transaction records -/

/-- A record that is constructed has a supported function code, whether it is listed or not. -/
theorem State.Inv.supported (h : s.Inv) (k : Nat) (hk : (s.txn k).constructed = true) :
    isSupportedFunction (s.txn k).functionCode = true := by
  rcases Cells.get_mem Txn.blank k s.txns with hb | hmem
  · have hblank : s.txn k = Txn.blank := hb
    simp [hblank, Txn.blank] at hk
  · exact h.records _ hmem hk

theorem State.Inv.setTxn (h : s.Inv) (k : Nat) (x : Txn) (hdriven : s.e.cur = some k → x.constructed = true)
    (hx : x.constructed = true → isSupportedFunction x.functionCode = true) : (s.setTxn k x).Inv :=
  { h with
    memory := Memory.wf_setTxn k x s h.memory
    driven := fun j hj => by
      refine ⟨(h.driven j hj).1, ?_⟩
      rw [State.setTxn_txn]
      split
      · next hjk => subst hjk; exact hdriven hj
      · exact (h.driven j hj).2
    records := fun p hp => by
      rcases Cells.mem_put _ _ _ _ _ hp with rfl | hmem
      · exact hx
      · exact h.records p hmem }

/-- Counting on a record keeps its arguments, and so the invariant. -/
theorem State.Inv.modifyTxn (h : s.Inv) (k : Nat) (g : Txn → Txn) (hg : (s.txn k).sameArguments (g (s.txn k))) :
    (s.modifyTxn k g).Inv := by
  obtain ⟨-, hcode, -, -, -, -, hmark⟩ := hg
  refine h.setTxn k _ (fun hk => ?_) (fun hc => ?_)
  · rw [hmark]; exact (h.driven k hk).2
  · rw [hcode]; exact h.supported k (hmark ▸ hc)

theorem Txn.countRequest_sameArguments (x : Txn) : x.sameArguments x.countRequest := ⟨rfl, rfl, rfl, rfl, rfl, rfl, rfl⟩
theorem Txn.countSuccess_sameArguments (x : Txn) : x.sameArguments x.countSuccess := ⟨rfl, rfl, rfl, rfl, rfl, rfl, rfl⟩
theorem Txn.recordReply_sameArguments (x : Txn) : x.sameArguments x.recordReply := ⟨rfl, rfl, rfl, rfl, rfl, rfl, rfl⟩

/-! ### The control point -/

theorem State.Inv.startTurnaround (h : s.Inv) (hc : s.e.cur = some r) : (startTurnaround s).Inv :=
  { h with
    between := fun hn => absurd (hc.symm.trans hn) (by simp)
    loopLeft := fun hd => absurd hd Bool.false_ne_true }

theorem State.Inv.successHandler (h : s.Inv) (hc : s.e.cur = some r) : (successHandler r s).Inv :=
  (h.modifyTxn r _ (Txn.countSuccess_sameArguments _)).startTurnaround hc

theorem State.Inv.takeFailure (h : s.Inv) (hc : s.e.cur = some r) (kind : ErrorKind) : (takeFailure r kind s).Inv :=
  ((h.withOutcome _).modifyTxn r _ (Txn.countFailure_sameArguments kind _ _).1).startTurnaround hc

theorem State.Inv.acceptReply (h : s.Inv) (hc : s.e.cur = some r) : (acceptReply r s).Inv :=
  ((h.modifyTxn r _ (Txn.recordReply_sameArguments _)).withOutcome _).successHandler hc

theorem State.Inv.beginReceive (h : s.Inv) (hc : s.e.cur = some r) : (beginReceive s).Inv :=
  { h with
    received := Nat.zero_le _
    overflow := fun ho => absurd ho Bool.false_ne_true
    between := fun hn => absurd (hc.symm.trans hn) (by simp)
    loopLeft := fun _ => rfl }

/-- Outside AWAITING_REPLY the receive loop has not been left. -/
theorem State.Inv.not_rxDone (h : s.Inv) (hp : s.e.phase ≠ .awaitingReply) : ¬ s.rxDone = true :=
  fun hd => hp (h.loopLeft hd)

theorem State.Inv.finishRun (h : s.Inv) (hp : s.e.phase = .done) : (finishRun s).Inv :=
  { h with
    between := fun _ => rfl
    loopLeft := fun hd => absurd hd (h.not_rxDone (by simp [hp]))
    driven := fun _ hk => nomatch hk }

theorem State.Inv.turnaroundIteration (h : s.Inv) (hc : s.e.cur = some r) (hp : s.e.phase = .turnaroundDelay) :
    (turnaroundIteration s).Inv := by
  have hr : s.readTimer.Inv := h.withPorts _
  simp only [Machine.turnaroundIteration]
  split
  · exact { hr with
      between := fun hn => absurd (hc.symm.trans hn) (by simp)
      loopLeft := fun hd => absurd hd (h.not_rxDone (by simp [hp])) }
  · exact hr

/-! ### Encoding and receiving -/

/-- A frame within the capacity keeps the frame buffer and `E.txLen` within it (R130). -/
theorem State.Inv.encodeFrame (h : s.Inv) (body : List Byte) (hb : body.length + 2 ≤ s.par.frameCap) :
    (encodeFrame body s).Inv := by
  have hbody : ∀ c ∈ (s.writeFb 0 body).e.fb, c.1 < s.par.frameCap :=
    State.writeFb_bounded 0 _ body s h.frame (by omega)
  have hframe : ∀ c ∈ (Machine.encodeFrame body s).e.fb, c.1 < s.par.frameCap := by
    rw [encodeFrame_eq]
    exact State.writeFb_bounded _ _ _ _ hbody (by simpa using hb)
  have hwf : Memory.wf (Machine.encodeFrame body s) = true := by
    rw [encodeFrame_eq]
    exact Memory.wf_writeFb _ _ _ (Memory.wf_writeFb _ _ _ h.memory)
  exact {
    params := by simpa using h.params
    memory := hwf
    frame := by simpa using hframe
    received := by simpa using h.received
    encoded := by simpa using hb
    overflow := by simpa using h.overflow
    between := by simpa using h.between
    loopLeft := by simpa using h.loopLeft
    driven := by simpa using h.driven
    records := by simpa using h.records }

/-- One poll: the byte is stored within the capacity, or the buffer is full (R182). -/
theorem State.Inv.polledState (h : s.Inv) : (polledState s).Inv := by
  rw [polledState_eq]
  split
  · exact { h with }
  · next b _ =>
    split
    · next hn =>
      exact { h with
        memory := Memory.wf_setFbByte s.e.n b s h.memory
        frame := fun c hmem => by
          rcases Cells.mem_put _ _ _ _ _ hmem with rfl | hmem
          · exact hn
          · exact h.frame c hmem
        received := hn
        overflow := fun ho => absurd (h.overflow ho) (Nat.ne_of_lt hn) }
    · next hn => exact { h with overflow := fun _ => Nat.le_antisymm h.received (Nat.le_of_not_lt hn) }

theorem polledState_phase (s : State) : (polledState s).e.phase = s.e.phase := by
  rw [polledState_eq]
  split
  · rfl
  · split <;> rfl

theorem State.Inv.receiveIteration (h : s.Inv) (hp : s.e.phase = .awaitingReply) : (receiveIteration s).Inv := by
  have hr : s.readTimer.Inv := h.withPorts _
  simp only [Machine.receiveIteration]
  split
  · exact { hr with loopLeft := fun _ => hp }
  · rw [pollOnce_eq]
    exact { hr.polledState with loopLeft := fun _ => (polledState_phase _).trans hp }

/-! ### Operations -/

/-- A request operation raises a model fault, or sends a frame within the capacity and leaves IDLE (R130, R201, R202). -/
theorem State.Inv.runRequest {body : List Byte} {len need : Nat} (h : s.Inv) (hc : s.e.cur = some r)
    (hlen : body.length + 2 = len) (hx : runRequest r body len need s = .next t) : t.Inv := by
  by_cases hcap : s.par.frameCap < len
  · rw [runRequest_tooLong hcap] at hx; cases hx; exact h.raised _
  · have hle : len ≤ s.par.frameCap := Nat.le_of_not_lt hcap
    by_cases hbuf : (s.txn r).rbLen < need
    · rw [runRequest_noBuffer hle hbuf] at hx; cases hx; exact h.raised _
    · rw [runRequest_fits hle (Nat.le_of_not_lt hbuf)] at hx
      cases hx
      have hsent := ((h.encodeFrame body (hlen ▸ hle)).serialSend (withCrc body)).modifyTxn r _
        (Txn.countRequest_sameArguments _)
      have hcur := (encodeFrame_cur body s).trans hc
      rcases afterSend_cases r (((Machine.encodeFrame body s).serialSend (withCrc body)).modifyTxn r Txn.countRequest)
        with ⟨-, ha⟩ | ⟨-, ha⟩
      · rw [ha]; exact hsent.successHandler hcur
      · rw [ha]; exact hsent.beginReceive hcur

theorem State.Inv.replyEnds {m : Nat} (h : s.Inv) (hc : s.e.cur = some r) (he : ReplyEnds r m s t) : t.Inv := by
  rcases he with ⟨kind, u, d, -, rfl⟩ | ⟨u, d, -, rfl⟩ | ⟨f, u, d, -, rfl⟩
  · exact (d.inv h).takeFailure (d.e ▸ hc) kind
  · exact (d.inv h).acceptReply (d.e ▸ hc)
  · exact (d.inv h).raised f

/-- A host operation between RUNs: CONSTRUCT leaves a supported function code (R234), RUN drives a constructed
Transaction after CONFIGURE (R200). -/
theorem State.Inv.hostOperation {i : Instr} (h : s.Inv) (hc : s.e.cur = none) (hi : i.space = .host)
    (hx : exec i s = .next t) : t.Inv := by
  cases i with
  | configure baud timeout delay retries list count =>
    rw [exec_configure hc] at hx; cases hx
    split
    · exact h.raised _
    · exact h.configure _ _
  | construct k id f a q rb len =>
    rw [exec_construct hc] at hx; cases hx
    split
    · next hf => exact h.setTxn k _ (fun hk => absurd (hc.symm.trans hk) (by simp)) (fun _ => hf)
    · exact h.raised _
  | run k =>
    rw [exec_run hc] at hx; cases hx
    split
    · exact h.raised _
    · next hconf =>
      split
      · exact h.raised _
      · next hcons =>
        exact { h with
          between := fun _ => rfl
          loopLeft := fun hd => absurd hd (h.not_rxDone (by simp [h.between hc]))
          driven := fun j hj => by
            have hjk : k = j := Option.some.inj hj
            subst hjk
            exact ⟨Bool.eq_true_of_not_eq_false hconf, Bool.eq_true_of_not_eq_false hcons⟩ }
  | crc bytes => cases hx; exact h.withPorts _
  | _ => simp [Instr.space] at hi

/-! ### Steps -/

theorem step_request_inv (h : s.Inv) (hp : s.inPhase r .idle) (hs : step s = .next t) : t.Inv := by
  rw [step_request hp] at hs
  rcases hd : decode .request [(s.txn r).functionCode] with why | i
  · rw [hd] at hs; cases hs
  · rw [hd] at hs
    obtain ⟨len, need, hshape⟩ := decodeRequest_shape hd s.par.coilRule (s.txn r).quantity.toNat
    obtain ⟨body, hlen, hx⟩ := exec_request hp.2.1 hshape
    exact h.runRequest hp.2.1 hlen (hx.symm.trans hs)

theorem step_call_inv {record : List Byte} {rest : List HostInput} (h : s.Inv) (hf : s.e.fault = none)
    (hc : s.e.cur = none) (hh : s.ports.hostIn = .call record :: rest) (hs : step s = .next t) : t.Inv := by
  rw [step_call hf hc hh] at hs
  rcases hd : decode .host record with why | i
  · rw [hd] at hs; cases hs
  · rw [hd] at hs
    exact (h.withPorts _ : (s.hostTaken rest).Inv).hostOperation hc (decodeHost_space hd) hs

/-- Settles O44, by the control point: each kind of step makes only updates that keep the invariant. -/
theorem everyStepKeepsTheInvariant : Obligations.EveryStepKeepsTheInvariant := by
  intro s t h hs
  rcases step_points s with ⟨f, hf⟩ | ⟨hf, hc, hh⟩ | ⟨a, v, rest, hf, hc, hh⟩ | ⟨record, rest, hf, hc, hh⟩ |
    ⟨r, hp | hp | hp | hp | hp⟩
  · rw [step_faulted hf] at hs; cases hs
  · rw [step_waiting hf hc hh] at hs; cases hs; exact h
  · rw [step_store hf hc hh] at hs; cases hs; exact (h.setEntryAt a v).withPorts _
  · exact step_call_inv h hf hc hh hs
  · exact step_request_inv h hp hs
  · rw [step_receiving hp] at hs; cases hs; exact h.receiveIteration hp.1.2.2
  · obtain ⟨m, he⟩ := step_loopOver_cases hp hs
    exact h.replyEnds hp.1.2.1 he
  · rw [step_turnaround hp] at hs; cases hs; exact h.turnaroundIteration hp.2.1 hp.2.2
  · rw [step_done hp] at hs; cases hs; exact h.finishRun hp.2.2

end Sys2Proof.Machine
end

section
/-! What a step can do to a Transaction record, said once, and the rules of R41, R43 and R44 that follow from it. -/

namespace Sys2Proof.Machine

variable {s t u : State} {r k : Nat}

/-- Everything one step can do to the record `k`. -/
inductive RecordStep (s t : State) (k : Nat) : Prop
  /-- Nothing. -/
  | kept (h : t.txn k = s.txn k)
  /-- A request was sent (R201). -/
  | sent (h : t.txn k = (s.txn k).countRequest)
  /-- A broadcast was sent, which succeeds at once (R202). -/
  | broadcast (h : t.txn k = (s.txn k).countRequest.countSuccess)
  /-- The attempt failed (R205, R207). -/
  | failed (kind : ErrorKind) (maxRetries : Word)
      (h : t.txn k = ((s.txn k).countFailure kind).applyCeiling maxRetries)
  /-- A reply that passed every check was accepted (R203, R204). -/
  | accepted (hp : s.replyPasses k) (ho : t.e.outcome = some .success)
      (h : t.txn k = (s.txn k).recordReply.countSuccess)
  /-- CONSTRUCT wrote the record (R234). -/
  | constructed (hc : s.takesCall 0x01#8) (slaveId functionCode : Byte) (address quantity : HWord) (rb rbLen : Nat)
      (h : t.txn k = constructedTxn slaveId functionCode address quantity rb rbLen)

theorem RecordStep.of_txns (h : t.txns = s.txns) (k : Nat) : RecordStep s t k :=
  .kept (by simp only [State.txn, h])

theorem beginReceive_txn (s : State) (k : Nat) : (beginReceive s).txn k = s.txn k := rfl

/-- The record driven is counted on; every other is kept. -/
theorem step_request_record (hp : s.inPhase r .idle) (hs : step s = .next t) (k : Nat) : RecordStep s t k := by
  rcases step_request_cases hp hs with ⟨f, rfl⟩ | ⟨body, u, rfl, ⟨-, rfl⟩ | ⟨-, rfl⟩⟩
  · exact .kept rfl
  · by_cases hk : k = r
    · subst hk; exact .broadcast (by simp [successHandler_txn])
    · exact .kept (by simp [successHandler_txn, State.modifyTxn_txn, hk])
  · by_cases hk : k = r
    · subst hk; exact .sent (by simp [beginReceive_txn])
    · exact .kept (by simp [beginReceive_txn, State.modifyTxn_txn, hk])

/-- The record driven has failed or taken its reply, or a model fault was raised; every other record is kept. -/
theorem step_loopOver_record (hp : s.loopOver r) (hs : step s = .next t) (k : Nat) : RecordStep s t k := by
  obtain ⟨m, he⟩ := step_loopOver_cases hp hs
  rcases he with ⟨kind, u, d, -, rfl⟩ | ⟨u, d, -, rfl⟩ | ⟨f, u, d, -, rfl⟩
  · by_cases hk : k = r
    · subst hk; exact .failed kind u.c.maxRetries (by simp [takeFailure_txn, d.txn])
    · exact .kept (by simp [takeFailure_txn, d.txn, hk])
  · by_cases hk : k = r
    · subst hk; exact .accepted (step_loopOver_accept hp hs rfl) rfl (by simp [acceptReply_txn, d.txn])
    · exact .kept (by simp [acceptReply_txn, d.txn, hk])
  · exact .kept (d.txn k)

/-- Of the host calls only CONSTRUCT writes a record, its own. -/
theorem step_call_record {record : List Byte} {rest : List HostInput} (hf : s.e.fault = none) (hc : s.e.cur = none)
    (hh : s.ports.hostIn = .call record :: rest) (hs : step s = .next t) (k : Nat) : RecordStep s t k := by
  rcases step_call_cases hf hc hh hs with ⟨f, rfl⟩ | ⟨_, _, _, -, rfl⟩ | ⟨j, id, f, a, q, rb, len, htk, rfl⟩ |
    ⟨_, -, rfl⟩ | ⟨_, -, rfl⟩
  · exact .kept rfl
  · exact .kept rfl
  · by_cases hk : k = j
    · exact .constructed htk id f a q rb len (by rw [State.setTxn_txn, if_pos hk])
    · exact .kept ((State.setTxn_txn _ j k _).trans (if_neg hk))
  · exact .kept rfl
  · exact .kept rfl

/-- Every step does one of these to every record. -/
theorem step_record (hs : step s = .next t) (k : Nat) : RecordStep s t k := by
  rcases step_points s with ⟨f, hf⟩ | ⟨hf, hc, hh⟩ | ⟨a, v, rest, hf, hc, hh⟩ | ⟨record, rest, hf, hc, hh⟩ |
    ⟨r, hp | hp | hp | hp | hp⟩
  · rw [step_faulted hf] at hs; cases hs
  · rw [step_waiting hf hc hh] at hs; cases hs; exact .kept rfl
  · rw [step_store hf hc hh] at hs; cases hs; exact .kept rfl
  · exact step_call_record hf hc hh hs k
  · exact step_request_record hp hs k
  · rw [step_receiving hp] at hs; cases hs; exact .of_txns (receiveIteration_frame s).1 k
  · exact step_loopOver_record hp hs k
  · rw [step_turnaround hp] at hs; cases hs; exact .of_txns (turnaroundIteration_frame s).1 k
  · rw [step_done hp] at hs; cases hs; exact .kept rfl

/-! ### The monotone counters -/

/-- The counters of R41. -/
def Txn.monotoneCounters : List (Txn → Word) :=
  [Txn.requestsIssued, Txn.successfulRequests, Txn.failedRequests, Txn.exceptionErrors]

/-- Every monotone counter of `y` is that of `x`, or one more. -/
def Txn.countsOnFrom (x y : Txn) : Prop :=
  ∀ counter ∈ Txn.monotoneCounters, counter y = counter x ∨ counter y = counter x + 1#32

theorem Txn.countsOnFrom_iff (x y : Txn) :
    x.countsOnFrom y ↔
      (y.requestsIssued = x.requestsIssued ∨ y.requestsIssued = x.requestsIssued + 1#32) ∧
      (y.successfulRequests = x.successfulRequests ∨ y.successfulRequests = x.successfulRequests + 1#32) ∧
      (y.failedRequests = x.failedRequests ∨ y.failedRequests = x.failedRequests + 1#32) ∧
      (y.exceptionErrors = x.exceptionErrors ∨ y.exceptionErrors = x.exceptionErrors + 1#32) := by
  simp [Txn.countsOnFrom, Txn.monotoneCounters]

/-- The ceiling touches no monotone counter (R207). -/
theorem Txn.applyCeiling_counters (m : Word) (x : Txn) :
    ∀ counter ∈ Txn.monotoneCounters, counter (x.applyCeiling m) = counter x := by
  by_cases hm : m.toNat ≤ x.retries.toNat
  · rw [Txn.applyCeiling_yes hm]; simp [Txn.monotoneCounters]
  · rw [Txn.applyCeiling_no hm]; exact fun _ _ => rfl

theorem Txn.countRequest_countsOn (x : Txn) : x.countsOnFrom x.countRequest :=
  (Txn.countsOnFrom_iff _ _).mpr ⟨.inr rfl, .inl rfl, .inl rfl, .inl rfl⟩

theorem Txn.broadcast_countsOn (x : Txn) : x.countsOnFrom x.countRequest.countSuccess :=
  (Txn.countsOnFrom_iff _ _).mpr ⟨.inr rfl, .inr rfl, .inl rfl, .inl rfl⟩

theorem Txn.reply_countsOn (x : Txn) : x.countsOnFrom x.recordReply.countSuccess :=
  (Txn.countsOnFrom_iff _ _).mpr ⟨.inl rfl, .inr rfl, .inl rfl, .inl rfl⟩

/-- `exceptionErrors` counts the exceptions among the failures (R205). -/
theorem Txn.countFailure_countsOn (kind : ErrorKind) (x : Txn) : x.countsOnFrom (x.countFailure kind) := by
  refine (Txn.countsOnFrom_iff _ _).mpr ⟨.inl rfl, .inl rfl, .inr rfl, ?_⟩
  by_cases hk : kind = .exceptionResponse
  · exact .inr (if_pos hk)
  · exact .inl (if_neg hk)

/-- Settles O49, by what a step can do to a record: each way of counting moves a counter by at most one. -/
theorem countersAreOnlyIncremented : Obligations.CountersAreOnlyIncremented := by
  intro s t r counter hmem hs
  have keep : (s.txn r).countsOnFrom (t.txn r) →
      counter (t.txn r) = counter (s.txn r) ∨ counter (t.txn r) = counter (s.txn r) + 1#32 ∨
        (s.takesCall 0x01#8 ∧ counter (t.txn r) = 0#32) := fun h =>
    (h counter hmem).elim .inl (fun h => .inr (.inl h))
  cases step_record hs r with
  | kept h => exact .inl (by rw [h])
  | sent h => exact keep (h ▸ Txn.countRequest_countsOn _)
  | broadcast h => exact keep (h ▸ Txn.broadcast_countsOn _)
  | failed kind m h =>
    refine keep fun c hc => ?_
    rw [h, Txn.applyCeiling_counters m _ c hc]
    exact Txn.countFailure_countsOn kind _ c hc
  | accepted _ _ h => exact keep (h ▸ Txn.reply_countsOn _)
  | constructed htk _ _ _ _ _ _ h =>
    refine .inr (.inr ⟨htk, ?_⟩)
    have zero : ∀ c ∈ Txn.monotoneCounters, c (t.txn r) = 0#32 := by
      simp [Txn.monotoneCounters, h, constructedTxn]
    exact zero counter hmem

/-! ### connectionActive and receivedCount -/

/-- A failure never sets connectionActive and never writes receivedCount (R205, R207). -/
theorem Txn.failed_frame (kind : ErrorKind) (m : Word) (x : Txn) :
    (((x.countFailure kind).applyCeiling m).connectionActive = true → x.connectionActive = true) ∧
      ((x.countFailure kind).applyCeiling m).receivedCount = x.receivedCount := by
  by_cases hm : m.toNat ≤ (x.countFailure kind).retries.toNat
  · rw [Txn.applyCeiling_yes hm]; exact ⟨fun h => absurd h Bool.false_ne_true, rfl⟩
  · rw [Txn.applyCeiling_no hm]; exact ⟨id, rfl⟩

/-- Settles O50, by what a step can do to a record: outside CONSTRUCT the flag is kept or cleared. -/
theorem onlyConstructActivatesATransaction : Obligations.OnlyConstructActivatesATransaction := by
  intro s t r hs hoff hon
  have contra : (s.txn r).connectionActive = true → s.takesCall 0x01#8 := fun h => absurd (hoff.symm.trans h) (by simp)
  cases step_record hs r with
  | kept h | sent h | broadcast h | accepted _ _ h => rw [h] at hon; exact contra hon
  | failed kind m h => rw [h] at hon; exact contra ((Txn.failed_frame kind m _).1 hon)
  | constructed htk => exact htk

/-- Settles O51, by what a step can do to a record: only an accepted reply and CONSTRUCT write receivedCount. -/
theorem receivedCountOnlyBySuccess : Obligations.ReceivedCountOnlyBySuccess := by
  intro s t r hs hne
  cases step_record hs r with
  | kept h | sent h | broadcast h => rw [h] at hne; exact absurd rfl hne
  | failed kind m h => rw [h] at hne; exact absurd (Txn.failed_frame kind m _).2 hne
  | accepted hp ho h => exact .inl ⟨hp, ho, by rw [h]; rfl⟩
  | constructed htk => exact .inr htk

end Sys2Proof.Machine
end

section
/-! The frame of the replies, the control point and the configuration over a step, and the steps that run one
operation. -/

namespace Sys2Proof.Machine

variable {s t u : State} {r : Nat}

/-! ### The frame of the replies -/

theorem State.sameButResolution_raised (s : State) (r : Nat) (f : Fault) : State.sameButResolution r s (s.raised f) :=
  ⟨rfl, rfl, fun _ => rfl, fun _ _ => rfl, ⟨rfl, rfl, rfl, rfl, rfl, rfl, rfl⟩, rfl, rfl, rfl, rfl, rfl, rfl, rfl, rfl,
    rfl, rfl, rfl, rfl, rfl⟩

/-- The frame holds from a state that differs in data only, when it holds from the state with the data written. -/
theorem DataOnly.sameButResolution (d : DataOnly s u) (h : State.sameButResolution r u t) :
    State.sameButResolution r s t := by
  have hin : u.ports.hostIn = s.ports.hostIn := by rw [d.ports]
  have hout : u.ports.hostOut = s.ports.hostOut := by rw [d.ports]
  have sin : u.ports.serialIn = s.ports.serialIn := by rw [d.ports]
  have sout : u.ports.serialOut = s.ports.serialOut := by rw [d.ports]
  simpa only [State.sameButResolution, d.par, d.c, d.e, d.fbByte, d.txn, hin, hout, sin, sout] using h

theorem ReplyEnds.sameButResolution {m : Nat} (h : ReplyEnds r m s t) : State.sameButResolution r s t := by
  rcases h with ⟨kind, u, d, -, rfl⟩ | ⟨u, d, -, rfl⟩ | ⟨f, u, d, -, rfl⟩
  · exact d.sameButResolution (takeFailure_frame r kind u).1
  · exact d.sameButResolution (acceptReply_frame r u).1
  · exact d.sameButResolution (u.sameButResolution_raised r f)

/-- A reply writes none of the caller's entries outside the range of its register buffer (R65). -/
theorem ReplyEnds.entryAt_outside {m : Nat} (h : ReplyEnds r m s t) (a : Nat)
    (ha : a < (s.txn r).rb ∨ (s.txn r).rb + m ≤ a) : t.entryAt a = s.entryAt a := by
  rcases h with ⟨kind, u, -, hregs, rfl⟩ | ⟨u, -, hout, rfl⟩ | ⟨f, u, -, hout, rfl⟩
  · exact (takeFailure_entryAt r kind u a).trans (DataOnly.entryAt_of_regs hregs a)
  · exact (DataOnly.entryAt_of_regs (acceptReply_frame r u).2 a).trans (hout a ha)
  · exact hout a ha

/-- Settles O23, by the three ways a reply operation ends. -/
theorem repliesChangeNothingElse : Obligations.RepliesChangeNothingElse := by
  intro s t r i hi hc hx
  obtain ⟨t', ht', he⟩ := reply_ends hi hc
  rw [ht'] at hx; cases hx
  exact ⟨he.sameButResolution, he.entryAt_outside⟩

/-! ### The control point over a step of an attempt -/

/-- A step of an attempt on `r` starts from one of five points. -/
theorem attempt_points (hc : s.e.cur = some r) (hs : step s = .next t) :
    s.inPhase r .idle ∨ s.receiving r ∨ s.loopOver r ∨ s.inPhase r .turnaroundDelay ∨ s.inPhase r .done := by
  rcases step_points s with ⟨f, hf⟩ | ⟨-, hn, -⟩ | ⟨_, _, _, -, hn, -⟩ | ⟨_, _, -, hn, -⟩ | ⟨k, hk⟩
  · rw [step_faulted hf] at hs; cases hs
  · cases hc.symm.trans hn
  · cases hc.symm.trans hn
  · cases hc.symm.trans hn
  · have hcur : s.e.cur = some k := by
      rcases hk with h | h | h | h | h
      · exact h.2.1
      · exact h.1.2.1
      · exact h.1.2.1
      · exact h.2.1
      · exact h.2.1
    cases hc.symm.trans hcur
    exact hk

/-- IDLE is left for the receive phase, or for the turnaround by a broadcast; a model fault stays (R202). -/
theorem step_request_phase (hp : s.inPhase r .idle) (hs : step s = .next t) :
    t.e.cur = some r ∧
      (t.e.phase = .idle ∨ (t.e.phase = .awaitingReply ∧ (s.txn r).slaveId ≠ 0#8) ∨
        (t.e.phase = .turnaroundDelay ∧ (s.txn r).slaveId = 0#8)) := by
  have hc := hp.2.1
  rcases step_request_cases hp hs with ⟨f, rfl⟩ | ⟨body, u, rfl, ⟨hid, rfl⟩ | ⟨hid, rfl⟩⟩
  · exact ⟨hc, .inl hp.2.2⟩
  · exact ⟨(encodeFrame_cur body s).trans hc, .inr (.inr ⟨rfl, hid⟩)⟩
  · exact ⟨(encodeFrame_cur body s).trans hc, .inr (.inl ⟨rfl, hid⟩)⟩

theorem DataOnly.cur (d : DataOnly s u) : u.e.cur = s.e.cur := congrArg Engine.cur d.e
theorem DataOnly.phase (d : DataOnly s u) : u.e.phase = s.e.phase := congrArg Engine.phase d.e

/-- A reply operation begins the turnaround, or raises a model fault where it stands (R203, R205). -/
theorem ReplyEnds.phase {m : Nat} (h : ReplyEnds r m s t) :
    t.e.cur = s.e.cur ∧ (t.e.phase = s.e.phase ∨ t.e.phase = .turnaroundDelay) := by
  rcases h with ⟨kind, u, d, -, rfl⟩ | ⟨u, d, -, rfl⟩ | ⟨f, u, d, -, rfl⟩
  · exact ⟨d.cur, .inr rfl⟩
  · exact ⟨d.cur, .inr rfl⟩
  · exact ⟨d.cur, .inl d.phase⟩

/-- Settles O47, by the control point the step starts from. -/
theorem phaseOnlyMovesForward : Obligations.PhaseOnlyMovesForward := by
  intro s t r hc hs
  rcases attempt_points hc hs with hp | hp | hp | hp | hp
  · obtain ⟨hcur, hidle | ⟨hawait, hid⟩ | ⟨hturn, hid⟩⟩ := step_request_phase hp hs
    · exact .inl ⟨hidle.trans hp.2.2.symm, hcur⟩
    · exact .inr (.inl ⟨hp.2.2, hawait, hid, hcur⟩)
    · exact .inr (.inr (.inl ⟨hp.2.2, hturn, hid, hcur⟩))
  · rw [step_receiving hp] at hs; cases hs
    obtain ⟨-, -, hcur, hphase, -⟩ := receiveIteration_frame s
    exact .inl ⟨hphase, hcur.trans hc⟩
  · obtain ⟨m, he⟩ := step_loopOver_cases hp hs
    obtain ⟨hcur, hsame | hturn⟩ := he.phase
    · exact .inl ⟨hsame, hcur.trans hc⟩
    · exact .inr (.inr (.inr (.inl ⟨hp.1.2.2, hturn, hcur.trans hc⟩)))
  · rw [step_turnaround hp] at hs; cases hs
    obtain ⟨-, -, hcur, hsame | hdone, -⟩ := turnaroundIteration_frame s
    · exact .inl ⟨hsame, hcur.trans hc⟩
    · exact .inr (.inr (.inr (.inr (.inl ⟨hp.2.2, hdone, hcur.trans hc⟩))))
  · rw [step_done hp] at hs; cases hs
    exact .inr (.inr (.inr (.inr (.inr ⟨hp.2.2, rfl, rfl⟩))))

/-! ### The configuration registers -/

theorem step_request_c (hp : s.inPhase r .idle) (hs : step s = .next t) : t.c = s.c := by
  rcases step_request_cases hp hs with ⟨f, rfl⟩ | ⟨body, u, rfl, ⟨-, rfl⟩ | ⟨-, rfl⟩⟩
  · rfl
  · exact encodeFrame_c body s
  · exact encodeFrame_c body s

theorem step_loopOver_c (hp : s.loopOver r) (hs : step s = .next t) : t.c = s.c := by
  obtain ⟨m, he⟩ := step_loopOver_cases hp hs
  obtain ⟨-, hc, -⟩ := he.sameButResolution
  exact hc

theorem step_call_c {record : List Byte} {rest : List HostInput} (hf : s.e.fault = none) (hc : s.e.cur = none)
    (hh : s.ports.hostIn = .call record :: rest) (hs : step s = .next t) : t.c = s.c ∨ s.takesCall 0x00#8 := by
  rcases step_call_cases hf hc hh hs with ⟨f, rfl⟩ | ⟨_, _, _, htk, -⟩ | ⟨_, _, _, _, _, _, _, -, rfl⟩ |
    ⟨_, -, rfl⟩ | ⟨_, -, rfl⟩
  · exact .inl rfl
  · exact .inr htk
  · exact .inl rfl
  · exact .inl rfl
  · exact .inl rfl

/-- A step keeps the configuration registers or takes a CONFIGURE call. -/
theorem step_c (hs : step s = .next t) : t.c = s.c ∨ s.takesCall 0x00#8 := by
  rcases step_points s with ⟨f, hf⟩ | ⟨hf, hc, hh⟩ | ⟨a, v, rest, hf, hc, hh⟩ | ⟨record, rest, hf, hc, hh⟩ |
    ⟨r, hp | hp | hp | hp | hp⟩
  · rw [step_faulted hf] at hs; cases hs
  · rw [step_waiting hf hc hh] at hs; cases hs; exact .inl rfl
  · rw [step_store hf hc hh] at hs; cases hs; exact .inl rfl
  · exact step_call_c hf hc hh hs
  · exact .inl (step_request_c hp hs)
  · rw [step_receiving hp] at hs; cases hs
    obtain ⟨-, hc, -⟩ := receiveIteration_frame s
    exact .inl hc
  · exact .inl (step_loopOver_c hp hs)
  · rw [step_turnaround hp] at hs; cases hs
    obtain ⟨-, hc, -⟩ := turnaroundIteration_frame s
    exact .inl hc
  · rw [step_done hp] at hs; cases hs; exact .inl rfl

/-- Settles O52, by what a step does to the registers at each control point. -/
theorem onlyConfigureWritesTheConfiguration : Obligations.OnlyConfigureWritesTheConfiguration :=
  fun _ _ hs hne => (step_c hs).resolve_left hne

/-! ### The operation a step runs -/

/-- Settles O30, by the step at each of the three points where the engine meets an operation. -/
theorem stepRunsTheDecodedOperation : Obligations.StepRunsTheDecodedOperation := by
  intro s i
  refine ⟨fun record rest hf hc hh hd => ?_, fun r hp hd => ?_, fun r hp hd => ?_⟩
  · rw [step_call hf hc hh, hd]; rfl
  · rw [step_request hp, hd]
  · rw [decode_reply] at hd; cases hd
    exact step_reply hp

/-- Settles O41, by the step that takes a store. -/
theorem callerStoreChangesOneEntry : Obligations.CallerStoreChangesOneEntry := by
  intro s a v rest hf hc hh
  exact ⟨_, step_store hf hc hh, fun j => s.setEntryAt_entryAt a j v, rfl, rfl, rfl, rfl⟩

end Sys2Proof.Machine
end

section
/-! What runs past the frame buffer, in a request (R61) and in a reply (R62), and the serial line over a step (R70, R76). -/

namespace Sys2Proof.Machine

variable {s t u : State} {r : Nat}

/-! ### A request longer than the frame buffer -/

/-- Settles O8, by the length check, which comes before any write (R130). -/
theorem requestTooLongRaisesEncodeOverflow : Obligations.RequestTooLongRaisesEncodeOverflow := by
  intro s r len need i hc hshape hlong
  obtain ⟨body, -, hx⟩ := exec_request hc hshape
  exact hx.trans (runRequest_tooLong hlong)

/-! ### A reply whose data runs past the frame buffer -/

/-- R157, R158: the two register replies are one decoder. -/
theorem exec_registerReply {i : Instr} (hi : i ∈ [Instr.rplReadHoldingRegisters, Instr.rplReadInputRegisters])
    (s : State) : exec i s = decodeRegisters s := by
  simp only [List.mem_cons, List.not_mem_nil, or_false] at hi
  rcases hi with rfl | rfl <;> rfl

/-- R155, R156: the two coil replies are one decoder. -/
theorem exec_coilReply {i : Instr} (hi : i ∈ [Instr.rplReadCoilStatus, Instr.rplReadInputStatus]) (s : State) :
    exec i s = decodeCoil s := by
  simp only [List.mem_cons, List.not_mem_nil, or_false] at hi
  rcases hi with rfl | rfl <;> rfl

/-- A data reply that passes the byte count and the buffer check, and whose loop fails, raises what the loop does. -/
theorem decodeData_of_loop_error {expected entries : Nat} {loop : State → Except (Fault × State) State}
    {e : Fault × State} (hn : 2 < s.e.n) (hcount : (s.fbByte 2).toNat = expected) (hfit : entries ≤ (s.txn r).rbLen)
    (hl : loop s = .error e) : decodeData r expected entries loop s = .next (e.2.raised e.1) := by
  simp only [decodeData, rxByte_received hn, hcount, ne_eq, not_true_eq_false, if_false, Nat.not_lt.mpr hfit, hl,
    raiseFrom]

/-- A fault raised after data was written: of the engine only `E.fault` differs (R260). -/
theorem DataOnly.raised_e (d : DataOnly s u) (f : Fault) : (u.raised f).e = { s.e with fault := some f } := by
  simp only [State.raised, d.e]

/-- The register loop fails when the last register's low byte lies at or above the capacity. -/
theorem registerLoop_beyond (rb : Nat) {q : Nat} (hn : 2 < s.e.n) (hcap : s.e.n ≤ s.par.frameCap)
    (hpast : s.par.frameCap < 3 + 2 * q) :
    ∃ e, registerLoop rb q 0 s = .error e ∧
      LoopFails rb 0 q (fun k => 4 + 2 * k < s.e.n) (fun k => s.par.frameCap ≤ 4 + 2 * k)
        (fun k => be16 (s.fbByte (3 + 2 * k)) (s.fbByte (4 + 2 * k))) s e := by
  have spec := registerLoop_spec rb q 0 s
  rcases h : registerLoop rb q 0 s with e | v
  · rw [h] at spec
    obtain ⟨-, -, -, hfails⟩ := spec
    exact ⟨e, rfl, hfails hcap⟩
  · rw [h] at spec
    obtain ⟨-, hread⟩ := spec
    omega

/-- The coil loop fails when data byte `BC - 1`, which its last entry reads, lies at or above the capacity. -/
theorem coilLoop_beyond (rb : Nat) {bc : Nat} (hn : 2 < s.e.n) (hcap : s.e.n ≤ s.par.frameCap)
    (hpast : s.par.frameCap < 3 + bc) :
    ∃ e, coilLoop rb bc ((bc + 1) / 2) 0 s = .error e ∧ e.1 = .readBeyondFrame ∧ DataOnly s e.2 := by
  have spec := coilLoop_spec rb bc ((bc + 1) / 2) 0 s
  rcases h : coilLoop rb bc ((bc + 1) / 2) 0 s with e | v
  · rw [h] at spec
    obtain ⟨hfault, hdata, -⟩ := spec
    exact ⟨e, rfl, hfault, hdata⟩
  · rw [h] at spec
    obtain ⟨-, hread⟩ := spec
    have hlast := hread ((bc - 1) / 2) (Nat.zero_le _) (by omega)
    omega

/-- Settles O21: the loop of the reply fails at the capacity, and what it raises is raised. -/
theorem replyPastTheBufferRaisesFault : Obligations.ReplyPastTheBufferRaisesFault := by
  refine ⟨fun s r q i hi hc hq hn hcap hcount hfit hpast => ?_, fun s r bc i hi hc hbc hn hcap hcount hfit hpast => ?_⟩
  · obtain ⟨e, hl, hfails⟩ := registerLoop_beyond (s.txn r).rb hn hcap hpast
    refine ⟨e.2.raised e.1, ?_, ?_, hfails.leaves.data.txns, fun k hk hrx => ?_, fun k hout => ?_⟩
    · rw [exec_registerReply hi]
      simp only [decodeRegisters, withAttempt, hc, ← hq]
      exact decodeData_of_loop_error hn hcount hfit hl
    · rw [hfails.leaves.data.raised_e, hfails.fault]
    · exact hfails.leaves.written k (Nat.zero_le k) (by omega) hrx
    · exact hfails.unreached k (Nat.zero_le k) hout
  · obtain ⟨e, hl, hfault, hdata⟩ := coilLoop_beyond (s.txn r).rb hn hcap hpast
    refine ⟨e.2.raised e.1, ?_, ?_, hdata.txns⟩
    · rw [exec_coilReply hi]
      simp only [decodeCoil, withAttempt, hc]
      exact decodeData_of_loop_error hn (hcount.trans hbc) hfit (by rw [coilEntries, ← hbc]; exact hl)
    · rw [hdata.raised_e, hfault]

/-! ### The serial line over a step -/

/-- A resolution neither sends nor polls. -/
theorem State.sameButResolution.serial (h : State.sameButResolution r s t) :
    t.ports.serialIn = s.ports.serialIn ∧ t.ports.serialOut = s.ports.serialOut := by
  obtain ⟨-, -, -, -, -, -, -, -, -, -, -, -, -, -, -, -, hin, hout⟩ := h
  exact ⟨hin, hout⟩

/-- Once the receive loop has ended, a step neither sends nor polls. -/
theorem step_loopOver_serial (hp : s.loopOver r) (hs : step s = .next t) :
    t.ports.serialIn = s.ports.serialIn ∧ t.ports.serialOut = s.ports.serialOut := by
  obtain ⟨m, he⟩ := step_loopOver_cases hp hs
  exact he.sameButResolution.serial

/-- Settles O48, by the four control points of an attempt outside IDLE. -/
theorem nothingIsSentWhileAwaitingOrTurning : Obligations.NothingIsSentWhileAwaitingOrTurning := by
  intro s t r hc hidle hs
  rcases attempt_points hc hs with hp | hp | hp | hp | hp
  · exact absurd hp.2.2 hidle
  · rw [step_receiving hp] at hs; cases hs
    obtain ⟨-, -, -, -, hout, -⟩ := receiveIteration_frame s
    exact hout
  · exact (step_loopOver_serial hp hs).2
  · rw [step_turnaround hp] at hs; cases hs
    obtain ⟨-, -, -, -, hout, -⟩ := turnaroundIteration_frame s
    exact hout
  · rw [step_done hp] at hs; cases hs; rfl

@[simp] theorem startTurnaround_serialIn (s : State) : (startTurnaround s).ports.serialIn = s.ports.serialIn :=
  Ports.passTime_serialIn _

@[simp] theorem beginReceive_serialIn (s : State) : (beginReceive s).ports.serialIn = s.ports.serialIn :=
  Ports.passTime_serialIn _

/-- Sending a request takes no answer: no byte of an earlier frame is dropped before the receive phase (R70). -/
theorem step_request_serialIn (hp : s.inPhase r .idle) (hs : step s = .next t) :
    t.ports.serialIn = s.ports.serialIn := by
  rcases step_request_cases hp hs with ⟨f, rfl⟩ | ⟨body, u, rfl, ⟨-, rfl⟩ | ⟨-, rfl⟩⟩
  · rfl
  · simp [successHandler]
  · simp

/-- No host call takes an answer. -/
theorem step_call_serialIn {record : List Byte} {rest : List HostInput} (hf : s.e.fault = none)
    (hc : s.e.cur = none) (hh : s.ports.hostIn = .call record :: rest) (hs : step s = .next t) :
    t.ports.serialIn = s.ports.serialIn := by
  rcases step_call_cases hf hc hh hs with ⟨f, rfl⟩ | ⟨_, _, _, -, rfl⟩ | ⟨_, _, _, _, _, _, _, -, rfl⟩ |
    ⟨_, -, rfl⟩ | ⟨_, -, rfl⟩
  all_goals rfl

/-- Settles O53, by the control point: only an iteration of the receive loop polls. -/
theorem serialInputIsNeverFlushed : Obligations.SerialInputIsNeverFlushed := by
  intro s t hs
  rcases step_points s with ⟨f, hf⟩ | ⟨hf, hc, hh⟩ | ⟨a, v, rest, hf, hc, hh⟩ | ⟨record, rest, hf, hc, hh⟩ |
    ⟨r, hp | hp | hp | hp | hp⟩
  · rw [step_faulted hf] at hs; cases hs
  · rw [step_waiting hf hc hh] at hs; cases hs; exact .inl rfl
  · rw [step_store hf hc hh] at hs; cases hs; exact .inl rfl
  · exact .inl (step_call_serialIn hf hc hh hs)
  · exact .inl (step_request_serialIn hp hs)
  · rw [step_receiving hp] at hs; cases hs
    obtain ⟨-, -, -, -, -, -, hnone | ⟨answer, hone⟩⟩ := receiveIteration_frame s
    · exact .inl hnone
    · exact .inr ⟨r, answer, hp, hone⟩
  · exact .inl (step_loopOver_serial hp hs).1
  · rw [step_turnaround hp] at hs; cases hs
    obtain ⟨-, -, -, -, -, -, hin⟩ := turnaroundIteration_frame s
    exact .inl hin
  · rw [step_done hp] at hs; cases hs; exact .inl rfl

end Sys2Proof.Machine
end

section
/-! The encoding of the operations: byte assembly, one decoding rule per encoding that carries operands, the round trip
of R99, R100 and R104, and the class of a reply byte (R101). -/

namespace Sys2Proof

/-! ### Byte assembly -/

/-- R17: `be16` undoes `hi` and `lo`. -/
@[simp] theorem be16_hi_lo (v : HWord) : be16 (hi v) (lo v) = v := by
  ext i hlt
  by_cases h : i < 8
  · simp [be16, hi, lo, h, BitVec.getLsbD_eq_getElem hlt]
  · simp [be16, hi, lo, h, hlt, Nat.sub_lt_iff_lt_add (Nat.le_of_not_lt h), Nat.add_sub_cancel' (Nat.le_of_not_lt h)]

@[simp] theorem be32_length (n : Nat) : (be32 n).length = 4 := rfl

/-- A 32-bit operand reads back from its four bytes. -/
theorem be32At_be32 {n : Nat} (h : n < 2 ^ 32) : be32At (be32 n) 0 = n := by
  simp [be32At, byteAt, be32]; omega

@[simp] theorem wordAt_be32 (w : Word) : wordAt (be32 w.toNat) 0 = w := by
  rw [wordAt, be32At_be32 w.isLt, BitVec.ofNat_toNat, BitVec.setWidth_eq]

/-! ### Reading an operand past the ones before it -/

@[simp] theorem byteAt_cons_zero (b : Byte) (bs : List Byte) : byteAt (b :: bs) 0 = b := rfl
@[simp] theorem byteAt_cons_succ (b : Byte) (bs : List Byte) (k : Nat) : byteAt (b :: bs) (k + 1) = byteAt bs k := rfl
@[simp] theorem be16At_cons_zero (a b : Byte) (bs : List Byte) : be16At (a :: b :: bs) 0 = be16 a b := rfl
@[simp] theorem be16At_cons_succ (b : Byte) (bs : List Byte) (k : Nat) : be16At (b :: bs) (k + 1) = be16At bs k := rfl
@[simp] theorem be32At_cons_succ (b : Byte) (bs : List Byte) (k : Nat) : be32At (b :: bs) (k + 1) = be32At bs k := rfl

section

variable (n : Nat) (bs : List Byte) (k : Nat)

@[simp] theorem byteAt_after_be32 : byteAt (be32 n ++ bs) (k + 4) = byteAt bs k := rfl
@[simp] theorem be16At_after_be32 : be16At (be32 n ++ bs) (k + 4) = be16At bs k := rfl
@[simp] theorem be32At_after_be32 : be32At (be32 n ++ bs) (k + 4) = be32At bs k := rfl
@[simp] theorem wordAt_after_be32 : wordAt (be32 n ++ bs) (k + 4) = wordAt bs k := rfl
@[simp] theorem be32At_be32_append : be32At (be32 n ++ bs) 0 = be32At (be32 n) 0 := rfl
@[simp] theorem wordAt_be32_append : wordAt (be32 n ++ bs) 0 = wordAt (be32 n) 0 := rfl

end

/-! ### Decoding an encoding that carries operands -/

/-- R100, R153: the first row of the reply table takes every byte with bit 7 set. -/
theorem decodeReplyByte_exception {f : Byte} (h : isExceptionByte f = true) :
    decodeReplyByte f = .rplException f := by
  rw [decodeReplyByte, if_pos h]

/-- R100, R161: the last row takes the bytes with bit 7 clear that are none of the six function codes. -/
theorem decodeReplyByte_unsupported {f : Byte} (he : isExceptionByte f = false) (hs : isSupportedFunction f = false) :
    decodeReplyByte f = .rplUnsupported f := by
  simp only [isSupportedFunction, Bool.or_eq_false_iff, beq_eq_false_iff_ne, ne_eq] at hs
  obtain ⟨⟨⟨⟨⟨h1, h2⟩, h3⟩, h4⟩, h15⟩, h16⟩ := hs
  simp [decodeReplyByte, he, h1, h2, h3, h4, h15, h16]

@[simp] theorem decode_host_cons (sel : Byte) (ops : List Byte) :
    decode .host (sel :: ops) = decodeHostCall sel ops := by
  cases ops <;> rfl

/-- R104, CONFIGURE. -/
theorem decode_encode_configure (baud timeout delay retries : Word) {list : Nat} (count : Word) (h : list < 2 ^ 32) :
    decode .host (encode (.configure baud timeout delay retries list count)) =
      .ok (.configure baud timeout delay retries list count) := by
  simp [encode, decodeHostCall, be32At_be32 h]

/-- R104, CONSTRUCT. -/
theorem decode_encode_construct {t rb len : Nat} (id f : Byte) (a q : HWord) (ht : t < 2 ^ 32) (hrb : rb < 2 ^ 32)
    (hlen : len < 2 ^ 32) :
    decode .host (encode (.construct t id f a q rb len)) = .ok (.construct t id f a q rb len) := by
  simp [encode, decodeHostCall, be32At_be32 ht, be32At_be32 hrb, be32At_be32 hlen]

/-- R104, RUN. -/
theorem decode_encode_run {t : Nat} (h : t < 2 ^ 32) : decode .host (encode (.run t)) = .ok (.run t) := by
  simp [encode, decodeHostCall, be32At_be32 h]

/-! ### The round trip -/

/-- Settles O56, by the operation: a fixed byte, a reply byte of a class, or a call with operands. -/
theorem decodeOfEncodeIsTheOperation : Obligations.DecodeOfEncodeIsTheOperation := by
  intro i hwf
  cases i with
  | reqReadCoilStatus => rfl
  | reqReadInputStatus => rfl
  | reqReadHoldingRegisters => rfl
  | reqReadInputRegisters => rfl
  | reqForceMultipleCoils => rfl
  | reqPresetMultipleRegisters => rfl
  | rplException f => exact congrArg Except.ok (decodeReplyByte_exception hwf)
  | rplReadCoilStatus => rfl
  | rplReadInputStatus => rfl
  | rplReadHoldingRegisters => rfl
  | rplReadInputRegisters => rfl
  | rplForceMultipleCoils => rfl
  | rplPresetMultipleRegisters => rfl
  | rplUnsupported f =>
    simp only [Instr.wf, Bool.and_eq_true, Bool.not_eq_true'] at hwf
    exact congrArg Except.ok (decodeReplyByte_unsupported hwf.1 hwf.2)
  | configure baud timeout delay retries list count =>
    exact decode_encode_configure baud timeout delay retries count (of_decide_eq_true hwf)
  | construct t id f a q rb len =>
    simp only [Instr.wf, fitsOperand, Bool.and_eq_true, decide_eq_true_eq] at hwf
    obtain ⟨⟨ht, hrb⟩, hlen⟩ := hwf
    exact decode_encode_construct id f a q ht hrb hlen
  | run t => exact decode_encode_run (of_decide_eq_true hwf)
  | crc bytes => exact decode_host_cons 0x03#8 bytes

/-- Settles O55: each word is the encoding of its operation. -/
theorem decodeKnownWords : Obligations.DecodeKnownWords :=
  ⟨decodeOfEncodeIsTheOperation .reqForceMultipleCoils rfl, decodeOfEncodeIsTheOperation .rplReadInputRegisters rfl,
    decodeOfEncodeIsTheOperation (.rplException 0x83#8) rfl, decodeOfEncodeIsTheOperation (.rplUnsupported 0x05#8) rfl,
    decodeOfEncodeIsTheOperation (.run 258) (by decide), decodeOfEncodeIsTheOperation (.crc [0x11#8, 0x03#8]) rfl⟩

/-! ### The class of a reply byte -/

/-- A class is well-formed: a byte that reaches the last row has bit 7 clear and is no function code (R161). -/
theorem decodeReplyByte_wf (f : Byte) : (decodeReplyByte f).wf = true := by
  simp only [decodeReplyByte]
  split_ifs with he h1 h2 h3 h4 h15 h16
  · exact he
  any_goals rfl
  simp [Instr.wf, isSupportedFunction, he, h1, h2, h3, h4, h15, h16]

theorem encode_decodeReplyByte (f : Byte) : encode (decodeReplyByte f) = [f] := by
  simp only [decodeReplyByte]
  split_ifs <;> simp [encode, *]

/-- Settles O57: the class is the decoder's, and the round trip makes it the only one. -/
theorem everyReplyByteHasOneClass : Obligations.EveryReplyByteHasOneClass := by
  intro f
  refine ⟨decodeReplyByte f, rfl, decodeReplyByte_wf f, Machine.decodeReplyByte_space f, encode_decodeReplyByte f,
    fun j hwf hspace henc => ?_⟩
  have hround := decodeOfEncodeIsTheOperation j hwf
  rw [hspace, henc, Machine.decode_reply] at hround
  exact (Except.ok.inj hround).symm

end Sys2Proof
end

section
/-! The frames of the requests (R91 to R93): what a request that fits sends and leaves, once for all six, and the bytes
of each body. -/

namespace Sys2Proof.Machine

variable {s t u : State} {r : Nat}

/-! ### A request that fits sends its frame -/

/-- From `s` the request on `r` has sent this frame of `len` bytes: it stands at the start of the frame buffer, the rest
of the buffer is as before, the request is counted, and no fault is raised (R130, R201). -/
structure FrameSent (r len : Nat) (frame : List Byte) (s t : State) : Prop where
  sent : t.ports.serialOut = s.ports.serialOut ++ [.sent frame]
  length : frame.length = len
  txLen : t.e.txLen = len
  inside : ∀ k, k < len → t.fbByte k = frame.getD k 0#8
  outside : ∀ k, len ≤ k → t.fbByte k = s.fbByte k
  counted : (t.txn r).requestsIssued = (s.txn r).requestsIssued + 1#32
  fault : t.e.fault = s.e.fault

theorem frameSent_encodeFrame (r : Nat) (body : List Byte) (s : State) :
    FrameSent r (body.length + 2) (withCrc body) s
      (((encodeFrame body s).serialSend (withCrc body)).modifyTxn r Txn.countRequest) where
  sent := by simp
  length := withCrc_length body
  txLen := by simp
  inside k hk := by simp [encodeFrame_fbByte, hk]
  outside k hk := by simp [encodeFrame_fbByte, Nat.not_lt.mpr hk]
  counted := by simp [Txn.countRequest]
  fault := by simp

/-- The end of phase IDLE, a broadcast's too, leaves all of that as it is (R180, R202). -/
theorem FrameSent.afterSend {len : Nat} {frame : List Byte} (h : FrameSent r len frame s u) :
    FrameSent r len frame s (afterSend r u) := by
  rcases afterSend_cases r u with ⟨-, heq⟩ | ⟨-, heq⟩
  · obtain ⟨-, -, hfb, -, -, hissued, -, htx, -, -, -, -, -, -, -, -, -, hout⟩ := (successHandler_frame r u).1
    obtain ⟨-, hfault, -⟩ := successHandler_succeeded r u
    rw [heq]
    exact {
      sent := hout.trans h.sent
      length := h.length
      txLen := htx.trans h.txLen
      inside := fun k hk => (hfb k).trans (h.inside k hk)
      outside := fun k hk => (hfb k).trans (h.outside k hk)
      counted := hissued.trans h.counted
      fault := hfault.trans h.fault }
  · rw [heq]
    exact { h with sent := (Ports.passTime_serialOut _).trans h.sent }

/-- A request that passes both checks of R130 runs and sends its body with the CRC. -/
theorem runRequest_frameSent {body : List Byte} {len need : Nat} (hbody : body.length + 2 = len)
    (hlen : len ≤ s.par.frameCap) (hneed : need ≤ (s.txn r).rbLen) :
    ∃ t, runRequest r body len need s = .next t ∧ FrameSent r len (withCrc body) s t := by
  subst hbody
  exact ⟨_, runRequest_fits hlen hneed, (frameSent_encodeFrame r body s).afterSend⟩

/-! ### The parts of a frame -/

theorem withCrc_getD {body : List Byte} {k : Nat} (h : k < body.length) :
    (withCrc body).getD k 0#8 = body.getD k 0#8 := by
  simp [withCrc, List.getElem?_append_left h]

theorem withCrc_take {body : List Byte} {n : Nat} (h : n ≤ body.length) : (withCrc body).take n = body.take n :=
  List.take_append_of_le_length h

/-- The CRC stands after the body, low byte first, and is the CRC of what stands before it (R90, R122). -/
theorem withCrc_drop {body : List Byte} {n : Nat} (h : body.length = n) :
    (withCrc body).drop n = [lo (crc16 ((withCrc body).take n)), hi (crc16 ((withCrc body).take n))] := by
  subst h
  rw [withCrc_take (le_refl _), List.take_length, withCrc, List.drop_left]

/-! ### The four reads -/

theorem readRequest_eq (f : Byte) (hc : s.e.cur = some r) :
    readRequest f s = runRequest r (headerBytes f (s.txn r)) 8 0 s := by
  rw [readRequest, withAttempt, hc]

/-- R132 to R135: the four read requests are one encoder, with the function byte of the operation. -/
theorem exec_readRequest {i : Instr} {f : Byte}
    (hi : (i, f) ∈ [(Instr.reqReadCoilStatus, 0x01#8), (Instr.reqReadInputStatus, 0x02#8),
      (Instr.reqReadHoldingRegisters, 0x03#8), (Instr.reqReadInputRegisters, 0x04#8)]) (s : State) :
    exec i s = readRequest f s := by
  simp only [List.mem_cons, Prod.mk.injEq, List.not_mem_nil, or_false] at hi
  rcases hi with ⟨rfl, rfl⟩ | ⟨rfl, rfl⟩ | ⟨rfl, rfl⟩ | ⟨rfl, rfl⟩ <;> rfl

/-- Settles O5: the frame is the header and its CRC. -/
theorem readRequestsSendEightBytes : Obligations.ReadRequestsSendEightBytes := by
  intro s r i f hi hc hcap
  obtain ⟨t, ht, h⟩ := runRequest_frameSent (body := headerBytes f (s.txn r)) rfl hcap (Nat.zero_le _)
  exact ⟨t, _, ((exec_readRequest hi s).trans (readRequest_eq f hc)).trans ht, rfl, h.length, h.sent, h.txLen,
    h.inside, h.outside, h.counted, h.fault⟩

/-! ### The coil write -/

theorem exec_forceMultipleCoils (hc : s.e.cur = some r) :
    exec .reqForceMultipleCoils s =
      runRequest r (coilRequestBody 0x0F#8 s.par.coilRule (s.txn r) (s.rbEntry (s.txn r)))
        (9 + coilBytes s.par.coilRule (s.txn r).quantity.toNat)
        (coilEntries s.par.coilRule (s.txn r).quantity.toNat) s := by
  simp only [exec, execReqForceMultipleCoils, withAttempt, hc]

theorem coilRequestBody_data (f : Byte) {rule : CoilRule} {t : Txn} (entry : Nat → HWord) {k : Nat}
    (h : k < coilBytes rule t.quantity.toNat) :
    (coilRequestBody f rule t entry).getD (7 + k) 0#8 = coilDataByte entry k := by
  simp [coilRequestBody, headerBytes, coilData, Nat.add_comm 7 k, h]

/-- Settles O6: the frame is the body of R137 and its CRC. -/
theorem coilRequestSendsItsFrame : Obligations.CoilRequestSendsItsFrame := by
  intro s r bc hc hbc hcap hmax hbuf
  subst hbc
  have hbody := coilRequestBody_length 0x0F#8 s.par.coilRule (s.txn r) (s.rbEntry (s.txn r))
  obtain ⟨t, ht, h⟩ := runRequest_frameSent (r := r) (by rw [hbody]; omega) hcap hbuf
  refine ⟨t, _, (exec_forceMultipleCoils hc).trans ht, h.sent, h.length, ?_, ?_, fun k hk heven => ?_,
    fun k hk hodd => ?_, withCrc_drop hbody, h.txLen, h.inside, h.outside, h.counted, h.fault⟩
  · rw [withCrc_take (by omega)]; rfl
  · rw [withCrc_getD (by omega)]
    exact Nat.mod_eq_of_lt (by omega)
  · rw [withCrc_getD (by omega), coilRequestBody_data _ _ hk, coilDataByte, if_pos heven]
  · rw [withCrc_getD (by omega), coilRequestBody_data _ _ hk, coilDataByte, if_neg (by omega)]

/-! ### The register write -/

theorem exec_presetMultipleRegisters (hc : s.e.cur = some r) :
    exec .reqPresetMultipleRegisters s =
      runRequest r (registerRequestBody 0x10#8 (s.txn r) (s.rbEntry (s.txn r)))
        (9 + 2 * (s.txn r).quantity.toNat) (s.txn r).quantity.toNat s := by
  simp only [exec, execReqPresetMultipleRegisters, withAttempt, hc]

/-- Entry k of the register data stands at its bytes 2k and 2k + 1, high byte first. -/
theorem registerData_getD (entry : Nat → HWord) {q k : Nat} (h : k < q) :
    (registerData entry q).getD (2 * k) 0#8 = hi (entry k) ∧
      (registerData entry q).getD (2 * k + 1) 0#8 = lo (entry k) := by
  induction q with
  | zero => omega
  | succ q ih =>
    have hsplit : registerData entry (q + 1) = registerData entry q ++ [hi (entry q), lo (entry q)] := by
      simp [registerData, List.range_succ]
    have hlen := registerData_length entry q
    rcases Nat.lt_succ_iff_lt_or_eq.mp h with hk | rfl
    · rw [hsplit, List.getD_append _ _ _ _ (by omega), List.getD_append _ _ _ _ (by omega)]
      exact ih hk
    · rw [hsplit, List.getD_append_right _ _ _ _ (by omega), List.getD_append_right _ _ _ _ (by omega), hlen]
      simp

theorem registerRequestBody_data (f : Byte) {t : Txn} (entry : Nat → HWord) (k : Nat) :
    (registerRequestBody f t entry).getD (7 + k) 0#8 = (registerData entry t.quantity.toNat).getD k 0#8 := by
  simp [registerRequestBody, headerBytes, Nat.add_comm 7 k]

/-- Settles O7: the frame is the body of R138 and its CRC. -/
theorem registerRequestSendsItsFrame : Obligations.RegisterRequestSendsItsFrame := by
  intro s r q hc hq hcap hmax hbuf
  subst hq
  have hbody := registerRequestBody_length 0x10#8 (s.txn r) (s.rbEntry (s.txn r))
  obtain ⟨t, ht, h⟩ := runRequest_frameSent (r := r) (by rw [hbody]; omega) hcap hbuf
  refine ⟨t, _, (exec_presetMultipleRegisters hc).trans ht, h.sent, h.length, ?_, ?_, fun k hk => ?_,
    withCrc_drop hbody, h.txLen, h.inside, h.outside, h.counted, h.fault⟩
  · rw [withCrc_take (by omega)]; rfl
  · rw [withCrc_getD (by omega)]
    exact Nat.mod_eq_of_lt (by omega)
  · rw [withCrc_getD (by omega), show 8 + 2 * k = 7 + (2 * k + 1) by omega, withCrc_getD (by omega),
      registerRequestBody_data, registerRequestBody_data]
    exact registerData_getD _ hk

end Sys2Proof.Machine
end

section
/-! The CRC engine (R120 to R124): the register of the model is the shift rule over natural numbers, and a frame's own
CRC bytes take it to zero. -/

namespace Sys2Proof.Machine

/-! ### The shift rule over natural numbers -/

/-- One shift of R120 over natural numbers: an odd register is halved and XORed with 0xA001, an even one halved. -/
def natCrcBit (x : Nat) : Nat := if x % 2 = 1 then (x / 2) ^^^ 0xA001 else x / 2

theorem toNat_crcBit (r : HWord) : (crcBit r).toNat = natCrcBit r.toNat := by
  have hodd : r.getLsbD 0 = true ↔ r.toNat % 2 = 1 := by simp [BitVec.getLsbD, Nat.testBit_zero]
  have hhalf : (r >>> 1).toNat = r.toNat / 2 := by simp [Nat.shiftRight_one]
  unfold crcBit natCrcBit
  by_cases h : r.toNat % 2 = 1
  · rw [if_pos (hodd.mpr h), if_pos h, BitVec.toNat_xor, hhalf]
    rfl
  · rw [if_neg (mt hodd.mp h), if_neg h, hhalf]

theorem crcByte_eq_iterate (r : HWord) (b : Byte) : crcByte r b = crcBit^[8] (r ^^^ b.setWidth 16) := rfl

theorem toNat_crcByte (r : HWord) (b : Byte) : (crcByte r b).toNat = natCrcBit^[8] (r.toNat ^^^ b.toNat) := by
  have hsemi : Function.Semiconj BitVec.toNat crcBit natCrcBit := toNat_crcBit
  have hbyte : (b.setWidth 16).toNat = b.toNat := BitVec.toNat_setWidth_of_le (by decide)
  rw [crcByte_eq_iterate, (hsemi.iterate_right 8).eq, BitVec.toNat_xor, hbyte]

/-- Settles O1: `toNat` carries the register of the model to that of the rule, byte by byte. -/
theorem crcFollowsTheShiftRule : Obligations.CrcFollowsTheShiftRule := fun _ =>
  (List.foldl_hom BitVec.toNat fun r b => (toNat_crcByte r b).symm).symm

/-! ### The CRC of a frame with its CRC -/

@[simp] theorem crcBit_zero : crcBit 0#16 = 0#16 := rfl

theorem natCrcBit_double (x : Nat) : natCrcBit (x * 2) = x := by simp [natCrcBit]

theorem toNat_byte_shiftLeft (b : Byte) {k : Nat} (hk : k ≤ 8) : (b.setWidth 16 <<< k).toNat = b.toNat * 2 ^ k := by
  have hfits : b.toNat * 2 ^ k < 2 ^ 16 :=
    calc b.toNat * 2 ^ k ≤ b.toNat * 2 ^ 8 := Nat.mul_le_mul_left _ (Nat.pow_le_pow_right (by decide) hk)
      _ < 2 ^ 8 * 2 ^ 8 := Nat.mul_lt_mul_of_pos_right b.isLt (by decide)
  rw [BitVec.toNat_shiftLeft, BitVec.toNat_setWidth_of_le (by decide), Nat.shiftLeft_eq, Nat.mod_eq_of_lt hfits]

/-- A shift only undoes one doubling of a byte that still fits in the register: the register is even. -/
theorem crcBit_byte_shiftLeft (b : Byte) {k : Nat} (hk : k < 8) :
    crcBit (b.setWidth 16 <<< (k + 1)) = b.setWidth 16 <<< k := by
  apply BitVec.eq_of_toNat_eq
  rw [toNat_crcBit, toNat_byte_shiftLeft b hk, toNat_byte_shiftLeft b hk.le, pow_succ, ← mul_assoc, natCrcBit_double]

theorem crcBit_iterate_byte_shiftLeft (b : Byte) {k : Nat} (hk : k ≤ 8) :
    crcBit^[k] (b.setWidth 16 <<< k) = b.setWidth 16 := by
  induction k with
  | zero => exact BitVec.shiftLeft_zero _
  | succ k ih => rw [Function.iterate_succ_apply, crcBit_byte_shiftLeft b hk, ih (Nat.le_of_succ_le hk)]

theorem xor_lo (r : HWord) : r ^^^ (lo r).setWidth 16 = (hi r).setWidth 16 <<< 8 := by
  ext i hlt
  by_cases h : i < 8
  · simp [lo, h, BitVec.getLsbD_eq_getElem hlt]
  · have hhigh : i - 8 < 8 := by omega
    simp [lo, hi, h, hhigh, Nat.add_sub_cancel' (Nat.le_of_not_lt h), BitVec.getLsbD_eq_getElem hlt]

/-- The low byte of the register clears it, and the eight shifts then bring the high byte down. -/
theorem crcByte_lo (r : HWord) : crcByte r (lo r) = (hi r).setWidth 16 := by
  rw [crcByte_eq_iterate, xor_lo, crcBit_iterate_byte_shiftLeft _ le_rfl]

theorem crcByte_self (b : Byte) : crcByte (b.setWidth 16) b = 0#16 := by
  rw [crcByte_eq_iterate, BitVec.xor_self, Function.iterate_fixed crcBit_zero]

theorem crc16_append (s t : List Byte) : crc16 (s ++ t) = t.foldl crcByte (crc16 s) := List.foldl_append

/-- Settles O2: the low CRC byte leaves the high one in the register, and that one leaves zero. -/
theorem crcOfAFrameWithItsCrcIsZero : Obligations.CrcOfAFrameWithItsCrcIsZero := by
  intro body
  rw [withCrc, crc16_append]
  simp only [List.foldl_cons, List.foldl_nil]
  rw [crcByte_lo, crcByte_self]

/-! ### The CRC call -/

/-- Settles O3: the call writes `ports.hostOut` and nothing else. -/
theorem crcCommandHandsBackTheChecksum : Obligations.CrcCommandHandsBackTheChecksum := fun bytes s =>
  ⟨_, exec_crc bytes s, rfl, rfl⟩

end Sys2Proof.Machine
end

section
/-! The counts of a coil write (R131), a request past its register buffer (R64), and what the six requests leave
unchanged (R139, R201). -/

namespace Sys2Proof.Machine

variable {s t u : State} {r len : Nat}

/-! ### Coil counts -/

/-- SOURCE counts two bytes for each whole group of 16 coils, and one byte for a rest (R131). -/
theorem coilBytes_source (q : Nat) :
    coilBytes .source q = if q % 16 = 0 then 2 * (q / 16) else 2 * (q / 16) + 1 := by
  by_cases h : q % 16 = 0 <;> simp [coilBytes, h]

/-- MODBUS counts one byte for each group of 8 coils, the last perhaps not full (R131). -/
theorem coilBytes_modbus (q : Nat) : coilBytes .modbus q = (q + 7) / 8 := rfl

/-- Under either rule the register count is that of the groups of 16 coils: the byte the rules may differ by is the
second of a last pair. -/
theorem coilEntries_eq (rule : CoilRule) (q : Nat) : coilEntries rule q = (q + 15) / 16 := by
  cases rule with
  | source =>
    rw [coilEntries, coilBytes_source]
    split <;> omega
  | modbus =>
    rw [coilEntries, coilBytes_modbus]
    omega

/-- A rest of 1 to 8 coils takes one byte under both rules; a rest of 9 to 15 takes one more under MODBUS. -/
theorem coilBytes_modbus_eq (q : Nat) :
    coilBytes .modbus q = if 9 ≤ q % 16 then coilBytes .source q + 1 else coilBytes .source q := by
  rw [coilBytes_source, coilBytes_modbus]
  split_ifs <;> omega

/-- Settles O4, by the rest of the coils over whole groups of 16. -/
theorem coilCountsFollowTheRule : Obligations.CoilCountsFollowTheRule := by
  intro q
  have hdiff := coilBytes_modbus_eq q
  refine ⟨coilBytes_source q, ?_, ?_, ?_, ?_, ?_, fun h => ?_⟩
  · rw [coilBytes_modbus]; omega
  · rw [coilBytes_modbus]; omega
  · rw [coilEntries_eq]; split <;> omega
  · rw [coilEntries_eq, coilEntries_eq]
  · rw [hdiff]; split <;> omega
  · rw [hdiff, if_pos h]

/-! ### A request past its register buffer -/

/-- Settles O9, by the buffer check, which follows the length check and comes before any write (R130). -/
theorem requestBufferTooSmallRaisesFault : Obligations.RequestBufferTooSmallRaisesFault := by
  intro s r len need i hc hshape hfits hsmall
  obtain ⟨body, -, hx⟩ := exec_request hc hshape
  exact hx.trans (runRequest_noBuffer hfits hsmall)

/-! ### What a request leaves unchanged -/

/-- What a request keeps of the record it is for: everything but the count of requests and what a broadcast's success
writes (R201, R202). -/
def Txn.keptByRequest (x y : Txn) : Prop :=
  x.sameArguments y ∧ y.receivedCount = x.receivedCount ∧ y.connectionActive = x.connectionActive ∧
    y.failedRequests = x.failedRequests ∧ y.exceptionErrors = x.exceptionErrors

theorem Txn.keptByRequest_refl (x : Txn) : x.keptByRequest x :=
  ⟨⟨rfl, rfl, rfl, rfl, rfl, rfl, rfl⟩, rfl, rfl, rfl, rfl⟩

/-- What a request on `r` with a frame of `len` bytes keeps (R139, R201). -/
structure RequestKeeps (r len : Nat) (s t : State) : Prop where
  outside : ∀ k, len ≤ k → t.fbByte k = s.fbByte k
  entries : ∀ a, t.entryAt a = s.entryAt a
  others : ∀ k, k ≠ r → t.txn k = s.txn k
  record : (s.txn r).keptByRequest (t.txn r)
  par : t.par = s.par
  c : t.c = s.c
  cur : t.e.cur = s.e.cur
  dispatchCount : t.e.dispatchCount = s.e.dispatchCount
  configured : t.e.configured = s.e.configured
  hostIn : t.ports.hostIn = s.ports.hostIn
  hostOut : t.ports.hostOut = s.ports.hostOut
  serialIn : t.ports.serialIn = s.ports.serialIn

theorem requestKeeps_raised (r len : Nat) (s : State) (f : Fault) : RequestKeeps r len s (s.raised f) where
  outside _ _ := rfl
  entries _ := rfl
  others _ _ := rfl
  record := Txn.keptByRequest_refl _
  par := rfl
  c := rfl
  cur := rfl
  dispatchCount := rfl
  configured := rfl
  hostIn := rfl
  hostOut := rfl
  serialIn := rfl

/-- Encoding, sending and counting. -/
theorem requestKeeps_encodeFrame (r : Nat) (body : List Byte) (s : State) :
    RequestKeeps r (body.length + 2) s
      (((encodeFrame body s).serialSend (withCrc body)).modifyTxn r Txn.countRequest) where
  outside := (frameSent_encodeFrame r body s).outside
  entries a := by simp
  others k hk := by rw [State.modifyTxn_txn_other _ r k hk, State.serialSend_txn, encodeFrame_txn]
  record := by
    rw [State.modifyTxn_txn_same, State.serialSend_txn, encodeFrame_txn]
    exact Txn.keptByRequest_refl (s.txn r)
  par := by simp
  c := by simp
  cur := by simp
  dispatchCount := by simp
  configured := by simp
  hostIn := by simp
  hostOut := by simp
  serialIn := by simp

/-- A reading of the timer leaves what the ports hold of this. -/
theorem RequestKeeps.readTimer (h : RequestKeeps r len s u) : RequestKeeps r len s u.readTimer :=
  { h with
    hostIn := (Ports.passTime_hostIn _).trans h.hostIn
    hostOut := (Ports.passTime_hostOut _).trans h.hostOut
    serialIn := (Ports.passTime_serialIn _).trans h.serialIn }

/-- The success handler of a broadcast writes the two counters of R204 and begins the turnaround. -/
theorem RequestKeeps.successHandler (h : RequestKeeps r len s u) : RequestKeeps r len s (successHandler r u) :=
  { h.readTimer with
    others := fun k hk => by rw [successHandler_txn, if_neg hk, h.others k hk]
    record := by rw [successHandler_txn, if_pos rfl]; exact h.record }

theorem RequestKeeps.beginReceive (h : RequestKeeps r len s u) : RequestKeeps r len s (beginReceive u) :=
  { h.readTimer with }

/-- The end of phase IDLE keeps all of that (R201, R202). -/
theorem RequestKeeps.afterSend (h : RequestKeeps r len s u) : RequestKeeps r len s (afterSend r u) := by
  rcases afterSend_cases r u with ⟨-, heq⟩ | ⟨-, heq⟩
  · exact heq ▸ h.successHandler
  · exact heq ▸ h.beginReceive

/-- A request operation, whether a check of R130 stops it or it runs. -/
theorem runRequest_keeps {body : List Byte} {need : Nat} (hbody : body.length + 2 = len)
    (hx : runRequest r body len need s = .next t) : RequestKeeps r len s t := by
  rcases Nat.lt_or_ge s.par.frameCap len with hlong | hfits
  · rw [runRequest_tooLong hlong] at hx; cases hx
    exact requestKeeps_raised r len s _
  · rcases Nat.lt_or_ge (s.txn r).rbLen need with hsmall | hneed
    · rw [runRequest_noBuffer hfits hsmall] at hx; cases hx
      exact requestKeeps_raised r len s _
    · rw [runRequest_fits hfits hneed] at hx; cases hx
      subst hbody
      exact (requestKeeps_encodeFrame r body s).afterSend

/-- Settles O12, since each of the six is `runRequest` of a body two bytes shorter than its frame. -/
theorem requestsChangeNothingElse : Obligations.RequestsChangeNothingElse := by
  intro s t r len need i hc hshape hx
  obtain ⟨body, hbody, heq⟩ := exec_request hc hshape
  have h := runRequest_keeps hbody (heq.symm.trans hx)
  obtain ⟨harguments, hreceived, hactive, hfailed, hexceptions⟩ := h.record
  exact ⟨h.outside, h.entries, h.others, harguments, hreceived, hactive, hfailed, hexceptions, h.par, h.c, h.cur,
    h.dispatchCount, h.configured, h.hostIn, h.hostOut, h.serialIn⟩

end Sys2Proof.Machine
end

section
/-! How a reply is decoded (R153 to R162): the class of its function byte, the two ways a reply resolves an attempt, the
branches of the data and the echo decoders. -/

namespace Sys2Proof.Machine

variable {s t u : State} {r : Nat} {kind : ErrorKind}

/-! ### The two ways a reply resolves an attempt -/

/-- The failure path, taken after reads of the frame that stored nothing (R162, R251). -/
theorem DataOnly.takeFailure (d : DataOnly s u) (hr : u.regs = s.regs) (r : Nat) (kind : ErrorKind) :
    State.failedWith r kind s (takeFailure r kind u) ∧ ∀ a, (takeFailure r kind u).entryAt a = s.entryAt a := by
  refine ⟨?_, fun a => (takeFailure_entryAt r kind u a).trans (DataOnly.entryAt_of_regs hr a)⟩
  simpa only [State.failedWith, State.ceilingNext, d.txn, d.c, d.e] using takeFailure_failedWith r kind u

theorem acceptReply_entryAt (r : Nat) (s : State) (a : Nat) : (acceptReply r s).entryAt a = s.entryAt a :=
  DataOnly.entryAt_of_regs (acceptReply_frame r s).2 a

/-- A reply accepted after its data was stored (R155, R157, R159). -/
theorem DataOnly.acceptReply (d : DataOnly s u) (r : Nat) : State.succeededByReply r s (acceptReply r u) := by
  simpa only [State.succeededByReply, State.succeeded, d.txn, d.e] using acceptReply_succeeded r u

/-- Of the three ways a reply ends, only the failure path leaves FAIL as the outcome. -/
theorem ReplyEnds.failed {m : Nat} (h : ReplyEnds r m s t) (hnone : s.e.outcome = none)
    (hfail : t.e.outcome = some (.fail kind)) :
    State.failedWith r kind s t ∧ ∀ a, t.entryAt a = s.entryAt a := by
  rcases h with ⟨kind', u, d, hregs, rfl⟩ | ⟨u, d, -, rfl⟩ | ⟨f, u, d, -, rfl⟩
  · cases (takeFailure_failedWith r kind' u).1.symm.trans hfail
    exact d.takeFailure hregs r kind
  · cases (acceptReply_succeeded r u).1.symm.trans hfail
  · rw [State.raised_outcome, d.e, hnone] at hfail
    cases hfail

/-- Settles O22: the failure path is the only end of a reply with this outcome. -/
theorem failedReplyLeavesNoPartialResult : Obligations.FailedReplyLeavesNoPartialResult := by
  intro s t r i kind hi hc hnone hx hfail
  obtain ⟨t', ht', hends⟩ := reply_ends hi hc
  rw [ht'] at hx; cases hx
  obtain ⟨⟨-, -, -, -, -, -, hreceived, -⟩, hentries⟩ := hends.failed hnone hfail
  exact ⟨hentries, hreceived⟩

/-! ### The class of the function byte -/

/-- R153: the exception mask is bit 7. -/
theorem isExceptionByte_eq_getLsbD (f : Byte) : isExceptionByte f = f.getLsbD 7 := by
  have hmask : f &&& 0x80#8 = if f.getLsbD 7 then 0x80#8 else 0#8 := BitVec.and_twoPow f 7
  rw [isExceptionByte, hmask]
  cases f.getLsbD 7 <;> rfl

theorem exec_rplException (f : Byte) (hc : s.e.cur = some r) :
    exec (.rplException f) s = .next (takeFailure r .exceptionResponse s) := by
  simp only [exec, execRplException, withAttempt, hc]

theorem exec_rplUnsupported (f : Byte) (hc : s.e.cur = some r) :
    exec (.rplUnsupported f) s = .next (takeFailure r .unsupportedFunctionInReply s) := by
  simp only [exec, execRplUnsupported, withAttempt, hc]

/-- Settles O13, by the first row of the reply table. -/
theorem exceptionReplyFailsTheAttempt : Obligations.ExceptionReplyFailsTheAttempt := by
  intro s r f hc hbit
  have hclass : decodeReplyByte f = .rplException f :=
    decodeReplyByte_exception ((isExceptionByte_eq_getLsbD f).trans hbit)
  exact ⟨congrArg Except.ok hclass, _, exec_rplException f hc, (DataOnly.refl s).takeFailure rfl r _⟩

/-- Settles O14, by the last row of the reply table. -/
theorem unsupportedReplyFailsTheAttempt : Obligations.UnsupportedReplyFailsTheAttempt := by
  intro s r f hc hbit hnone
  have hclass : decodeReplyByte f = .rplUnsupported f :=
    decodeReplyByte_unsupported ((isExceptionByte_eq_getLsbD f).trans hbit)
      (Bool.eq_false_iff.mpr (mt (isSupportedFunction_iff f).mp hnone))
  exact ⟨congrArg Except.ok hclass, _, exec_rplUnsupported f hc, (DataOnly.refl s).takeFailure rfl r _⟩

/-! ### The branches of a data reply -/

theorem decodeRegisters_eq (hc : s.e.cur = some r) :
    decodeRegisters s =
      decodeData r (2 * (s.txn r).quantity.toNat) (s.txn r).quantity.toNat
        (registerLoop (s.txn r).rb (s.txn r).quantity.toNat 0) s := by
  simp only [decodeRegisters, withAttempt, hc]

theorem decodeCoil_eq (hc : s.e.cur = some r) :
    decodeCoil s =
      decodeData r (coilBytes s.par.coilRule (s.txn r).quantity.toNat)
        (coilEntries s.par.coilRule (s.txn r).quantity.toNat)
        (coilLoop (s.txn r).rb (coilBytes s.par.coilRule (s.txn r).quantity.toNat)
          (coilEntries s.par.coilRule (s.txn r).quantity.toNat) 0) s := by
  simp only [decodeCoil, withAttempt, hc]

/-- R155 to R158: the four data replies are one decoder, with the byte count each expects and the entries it writes. -/
theorem exec_dataReply {i : Instr} {expected : Nat}
    (hi : (i, expected) ∈ [(Instr.rplReadCoilStatus, coilBytes s.par.coilRule (s.txn r).quantity.toNat),
      (Instr.rplReadInputStatus, coilBytes s.par.coilRule (s.txn r).quantity.toNat),
      (Instr.rplReadHoldingRegisters, 2 * (s.txn r).quantity.toNat),
      (Instr.rplReadInputRegisters, 2 * (s.txn r).quantity.toNat)]) (hc : s.e.cur = some r) :
    ∃ loop, exec i s =
      decodeData r expected (replyEntries s.par.coilRule (s.txn r).quantity.toNat i) loop s := by
  simp only [List.mem_cons, Prod.mk.injEq, List.not_mem_nil, or_false] at hi
  rcases hi with ⟨rfl, rfl⟩ | ⟨rfl, rfl⟩ | ⟨rfl, rfl⟩ | ⟨rfl, rfl⟩
  · exact ⟨_, decodeCoil_eq hc⟩
  · exact ⟨_, decodeCoil_eq hc⟩
  · exact ⟨_, decodeRegisters_eq hc⟩
  · exact ⟨_, decodeRegisters_eq hc⟩

section

variable {expected entries : Nat} {loop : State → Except (Fault × State) State}

theorem decodeData_mismatch (hn : 2 < s.e.n) (hcount : (s.fbByte 2).toNat ≠ expected) :
    decodeData r expected entries loop s = .next (takeFailure r .replyLengthMismatch s) := by
  simp only [decodeData, rxByte_received hn, if_pos hcount]

theorem decodeData_noBuffer (hn : 2 < s.e.n) (hcount : (s.fbByte 2).toNat = expected)
    (hsmall : (s.txn r).rbLen < entries) :
    decodeData r expected entries loop s = .next (s.raised .bufferOutOfBounds) := by
  simp only [decodeData, rxByte_received hn, if_neg (not_not.mpr hcount), if_pos hsmall]

theorem decodeData_of_loop_ok (hn : 2 < s.e.n) (hcount : (s.fbByte 2).toNat = expected)
    (hfit : entries ≤ (s.txn r).rbLen) (hl : loop s = .ok u) :
    decodeData r expected entries loop s = .next (acceptReply r u) := by
  simp only [decodeData, rxByte_received hn, if_neg (not_not.mpr hcount), if_neg (Nat.not_lt.mpr hfit), hl]

end

/-- Settles O19, by the comparison of the byte count, which is the first check. -/
theorem replyLengthMismatchFails : Obligations.ReplyLengthMismatchFails := by
  intro s r expected i hi hc hn hcount
  obtain ⟨loop, hx⟩ := exec_dataReply hi hc
  exact ⟨_, hx.trans (decodeData_mismatch hn hcount), (DataOnly.refl s).takeFailure rfl r _⟩

/-- Settles O20, by the buffer check, which comes before the loop. -/
theorem replyBufferTooSmallRaisesFault : Obligations.ReplyBufferTooSmallRaisesFault := by
  intro s r expected i hi hc hn hcount hsmall
  obtain ⟨loop, hx⟩ := exec_dataReply hi hc
  exact hx.trans (decodeData_noBuffer hn hcount hsmall)

/-! ### A data reply that is stored -/

/-- The register loop succeeds when the last register's bytes lie below the capacity. -/
theorem registerLoop_within (rb : Nat) {q : Nat} (hcap : 3 + 2 * q ≤ s.par.frameCap) :
    ∃ u, registerLoop rb q 0 s = .ok u ∧
      LoopLeaves rb 0 q (fun k => 4 + 2 * k < s.e.n)
        (fun k => be16 (s.fbByte (3 + 2 * k)) (s.fbByte (4 + 2 * k))) s u := by
  have spec := registerLoop_spec rb q 0 s
  rcases h : registerLoop rb q 0 s with e | u
  · rw [h] at spec
    obtain ⟨hpast, -⟩ := spec
    omega
  · rw [h] at spec
    exact ⟨u, rfl, spec.1⟩

/-- The coil loop succeeds when its `bc` data bytes lie below the capacity. -/
theorem coilLoop_within (rb : Nat) {bc : Nat} (hcap : 3 + bc ≤ s.par.frameCap) :
    ∃ u, coilLoop rb bc ((bc + 1) / 2) 0 s = .ok u ∧
      LoopLeaves rb 0 ((bc + 1) / 2) (fun k => 3 + 2 * k < s.e.n ∧ (2 * k + 1 < bc → 4 + 2 * k < s.e.n))
        (fun k => le16 (s.fbByte (3 + 2 * k)) (if 2 * k + 1 < bc then s.fbByte (4 + 2 * k) else 0x00#8)) s u := by
  have spec := coilLoop_spec rb bc ((bc + 1) / 2) 0 s
  rcases h : coilLoop rb bc ((bc + 1) / 2) 0 s with e | u
  · rw [h] at spec
    obtain ⟨-, -, -, k, -, hk, hpast⟩ := spec
    omega
  · rw [h] at spec
    exact ⟨u, rfl, spec.1⟩

/-- Settles O15: the loop of R157 stores the registers, and the success handler leaves them. -/
theorem registerReplyStoresTheRegisters : Obligations.RegisterReplyStoresTheRegisters := by
  intro s r q i hi hc hq hn hcount hfit hcap
  obtain ⟨u, hl, hleaves⟩ := registerLoop_within (s.txn r).rb hcap
  refine ⟨acceptReply r u, ?_, hleaves.data.acceptReply r, fun k hk hrx => ?_, fun a ha => ?_⟩
  · rw [exec_registerReply hi, decodeRegisters_eq hc, ← hq]
    exact decodeData_of_loop_ok hn hcount hfit hl
  · rw [acceptReply_entryAt]
    exact hleaves.written k (Nat.zero_le k) (by omega) hrx
  · rw [acceptReply_entryAt]
    exact hleaves.outside a ha

/-- A lone last byte is the entry's low byte (R155). -/
theorem le16_zero (a : Byte) : le16 a 0x00#8 = a.setWidth 16 := by simp [le16]

/-- Settles O16: the loop of R155 stores the entries, and the success handler leaves them. -/
theorem coilReplyStoresTheCoils : Obligations.CoilReplyStoresTheCoils := by
  intro s r bc rc i hi hc hbc hrc hn hcount hfit hcap
  have hentries : rc = (bc + 1) / 2 := by rw [hrc, hbc, coilEntries]
  obtain ⟨u, hl, hleaves⟩ := coilLoop_within (s.txn r).rb hcap
  rw [← hentries] at hl hleaves
  refine ⟨acceptReply r u, ?_, hleaves.data.acceptReply r, fun k hk hrx => ?_, fun k hk hrx => ?_, fun a ha => ?_⟩
  · rw [exec_coilReply hi, decodeCoil_eq hc, ← hbc, ← hrc]
    exact decodeData_of_loop_ok hn hcount hfit hl
  · rw [acceptReply_entryAt, hleaves.written k (Nat.zero_le k) (by omega) ⟨by omega, fun _ => hrx⟩, if_pos hk]
  · have hlone : ¬ 2 * k + 1 < bc := by omega
    rw [acceptReply_entryAt, hleaves.written k (Nat.zero_le k) (by omega) ⟨hrx, fun h => absurd h hlone⟩,
      if_neg hlone, le16_zero]
  · rw [acceptReply_entryAt]
    exact hleaves.outside a ha

/-! ### The echo reply -/

/-- R159, R160: the two echo replies are one decoder. -/
theorem exec_echoReply {i : Instr} (hi : i ∈ [Instr.rplForceMultipleCoils, Instr.rplPresetMultipleRegisters])
    (s : State) : exec i s = decodeEcho s := by
  simp only [List.mem_cons, List.not_mem_nil, or_false] at hi
  rcases hi with rfl | rfl <;> rfl

/-- A byte received, or below the capacity, can be read (R62). -/
theorem rxByte_within {i : Nat} (h : i < s.e.n ∨ i < s.par.frameCap) : ∃ b u, rxByte i s = .ok (b, u) := by
  rcases hx : rxByte i s with e | ⟨b, u⟩
  · obtain ⟨-, hn, hcap⟩ := rxByte_error hx
    omega
  · exact ⟨b, u, rfl⟩

theorem rxBe16_within {i : Nat} (h : i + 1 < s.e.n ∨ i + 1 < s.par.frameCap) : ∃ v u, rxBe16 i s = .ok (v, u) := by
  obtain ⟨high, u, hhigh⟩ := rxByte_within (s := s) (i := i) (by omega)
  obtain ⟨d, -⟩ := rxByte_dataOnly hhigh
  obtain ⟨low, v, hlow⟩ := rxByte_within (s := u) (i := i + 1) (by rw [d.e, d.par]; exact h)
  exact ⟨be16 high low, v, by simp only [rxBe16, hhigh, hlow]⟩

/-- What the echo decoder answers once its four bytes can be read: each pair received is the one compared (R159). -/
theorem decodeEcho_answer (hc : s.e.cur = some r) (hread : 5 < s.e.n ∨ 5 < s.par.frameCap) :
    ∃ address quantity u, DataOnly s u ∧ u.regs = s.regs ∧
      (3 < s.e.n → address = be16 (s.fbByte 2) (s.fbByte 3)) ∧
      (5 < s.e.n → quantity = be16 (s.fbByte 4) (s.fbByte 5)) ∧
      decodeEcho s =
        if address ≠ (s.txn r).startAddress ∨ quantity ≠ (s.txn r).quantity then
          .next (takeFailure r .echoMismatch u)
        else .next (acceptReply r u) := by
  obtain ⟨address, u, haddress⟩ := rxBe16_within (s := s) (i := 2) (by omega)
  obtain ⟨d, hregs, ha⟩ := rxBe16_ok haddress
  obtain ⟨quantity, v, hquantity⟩ := rxBe16_within (s := u) (i := 4) (by rw [d.e, d.par]; exact hread)
  obtain ⟨d', hregs', hq⟩ := rxBe16_ok hquantity
  refine ⟨address, quantity, v, d.trans d', hregs'.trans hregs, ha, fun hn => ?_, ?_⟩
  · rw [hq (by rw [d.e]; exact hn), d.fbByte, d.fbByte]
  · simp only [decodeEcho, withAttempt, hc, haddress, hquantity, (d.trans d').txn]

/-- Settles O17: both pairs were received and both are the request's. -/
theorem echoReplyThatMatchesSucceeds : Obligations.EchoReplyThatMatchesSucceeds := by
  intro s r i hi hc hn haddress hquantity
  obtain ⟨address, quantity, u, d, hregs, ha, hq, hx⟩ := decodeEcho_answer hc (.inl hn)
  have hmatch : ¬ (address ≠ (s.txn r).startAddress ∨ quantity ≠ (s.txn r).quantity) := by
    rw [ha (by omega), hq hn, haddress, hquantity]
    exact fun h => h.elim (· rfl) (· rfl)
  rw [if_neg hmatch] at hx
  exact ⟨_, (exec_echoReply hi s).trans hx, d.acceptReply r,
    fun a => (acceptReply_entryAt r u a).trans (DataOnly.entryAt_of_regs hregs a)⟩

/-- Settles O18: one pair received that differs decides the comparison, whatever the other pair reads as. -/
theorem echoReplyThatDiffersFails : Obligations.EchoReplyThatDiffersFails := by
  intro s r i hi hc hcap hdiffers
  obtain ⟨address, quantity, u, d, hregs, ha, hq, hx⟩ := decodeEcho_answer hc (.inr hcap)
  have hmismatch : address ≠ (s.txn r).startAddress ∨ quantity ≠ (s.txn r).quantity := by
    rcases hdiffers with ⟨hn, hne⟩ | ⟨hn, hne⟩
    · exact .inl (ha hn ▸ hne)
    · exact .inr (hq hn ▸ hne)
  rw [if_pos hmismatch] at hx
  exact ⟨_, (exec_echoReply hi s).trans hx, d.takeFailure hregs r .echoMismatch⟩

end Sys2Proof.Machine
end

section
/-! The round trip of functions 3 and 4 (95 S3): a conforming register reply passes every check and its registers are
stored as they were sent. -/

namespace Sys2Proof.Machine

variable {s : State}

/-! ### A frame received whole -/

theorem le16_lo_hi (v : HWord) : le16 (lo v) (hi v) = v :=
  (BitVec.or_comm _ _).trans (be16_hi_lo v)

/-- A frame that stands in the buffer whole passes the CRC check (R123). -/
theorem State.crcHolds_of_frame {body : List Byte}
    (h : ∀ k, k < body.length + 2 → s.fbByte k = (withCrc body).getD k 0#8) : s.crcHolds (body.length + 2) := by
  have hbody : (List.range body.length).map s.fbByte = body := by
    apply List.ext_getElem
    · simp
    · intro k _ hk
      rw [List.getElem_map, List.getElem_range, h k (by omega), withCrc_getD hk, List.getD_eq_getElem _ _ hk]
  have hlow : s.fbByte body.length = lo (crc16 body) := by rw [h _ (by omega)]; simp [withCrc]
  have hhigh : s.fbByte (body.length + 1) = hi (crc16 body) := by rw [h _ (by omega)]; simp [withCrc]
  change le16 (s.fbByte body.length) (s.fbByte (body.length + 1)) = crc16 ((List.range body.length).map s.fbByte)
  rw [hlow, hhigh, hbody, le16_lo_hi]

/-! ### A conforming register reply -/

/-- The body of a conforming register reply: the slave, the function, the byte count, each register high byte first
(R95). -/
def registerReplyBody (id f : Byte) (vs : List HWord) : List Byte :=
  [id, f, BitVec.ofNat 8 (2 * vs.length)] ++ vs.flatMap fun v => [hi v, lo v]

/-- A reply's registers stand as a request's do. -/
theorem registerReplyBody_eq (id f : Byte) (vs : List HWord) :
    registerReplyBody id f vs =
      id :: f :: BitVec.ofNat 8 (2 * vs.length) :: registerData (fun k => vs.getD k 0#16) vs.length := by
  have hvs : (List.range vs.length).map (fun k => vs.getD k 0#16) = vs := by
    apply List.ext_getElem
    · simp
    · intro k _ hk
      rw [List.getElem_map, List.getElem_range, List.getD_eq_getElem _ _ hk]
  have hdata : vs.flatMap (fun v => [hi v, lo v]) = registerData (fun k => vs.getD k 0#16) vs.length := by
    conv_lhs => rw [← hvs, List.flatMap_map]
    rfl
  rw [registerReplyBody, hdata]
  rfl

theorem registerReplyBody_length (id f : Byte) (vs : List HWord) :
    (registerReplyBody id f vs).length = 3 + 2 * vs.length := by
  simp only [registerReplyBody_eq, List.length_cons, registerData_length]
  omega

theorem registerReplyBody_register (id f : Byte) {vs : List HWord} {k : Nat} (h : k < vs.length) :
    be16 ((registerReplyBody id f vs).getD (3 + 2 * k) 0#8) ((registerReplyBody id f vs).getD (4 + 2 * k) 0#8) =
      vs.getD k 0#16 := by
  obtain ⟨hhigh, hlow⟩ := registerData_getD (fun k => vs.getD k 0#16) h
  rw [registerReplyBody_eq, show 3 + 2 * k = 2 * k + 1 + 1 + 1 by omega,
    show 4 + 2 * k = 2 * k + 1 + 1 + 1 + 1 by omega]
  simp only [List.getD_cons_succ]
  rw [hhigh, hlow, be16_hi_lo]

/-- R100: the function bytes 3 and 4 are the two register replies. -/
theorem decodeReplyByte_register {f : Byte} (hf : f = 0x03#8 ∨ f = 0x04#8) :
    decodeReplyByte f ∈ [Instr.rplReadHoldingRegisters, Instr.rplReadInputRegisters] := by
  rcases hf with rfl | rfl <;> decide

/-- Settles O58: the frame passes every check, and O15 gives the registers it carries. -/
theorem registerReadRoundTrip : Obligations.RegisterReadRoundTrip := by
  intro s r f vs hover hovf hf hq hfit hmax hn hcap hframe
  have hlen := registerReplyBody_length (s.txn r).slaveId f vs
  have hsize : s.e.n = (registerReplyBody (s.txn r).slaveId f vs).length + 2 := by omega
  have hbyte : ∀ k, k < 3 + 2 * vs.length →
      s.fbByte k = (registerReplyBody (s.txn r).slaveId f vs).getD k 0#8 := fun k hk =>
    (hframe k (by omega)).trans (withCrc_getD (hlen ▸ hk))
  have hcount : (s.fbByte 2).toNat = 2 * vs.length := by
    rw [hbyte 2 (by omega)]
    exact Nat.mod_eq_of_lt (by omega)
  have hpasses : s.replyPasses r := by
    refine ⟨hover, hovf, by omega, hbyte 0 (by omega), ?_⟩
    rw [hsize] at hframe ⊢
    exact State.crcHolds_of_frame hframe
  have hfunction : s.fbByte 1 = f := hbyte 1 (by omega)
  obtain ⟨⟨-, hc, -⟩, -⟩ := hover
  obtain ⟨t, ht, hsucceeded, hregisters, -⟩ := registerReplyStoresTheRegisters s r vs.length _
    (decodeReplyByte_register hf) hc hq.symm (by omega) hcount hfit (by omega)
  refine ⟨t, ?_, hsucceeded, fun k hk => ?_, ?_⟩
  · rw [step_reply hpasses, hfunction, ht]
  · rw [hregisters k hk (by omega), hbyte _ (by omega), hbyte _ (by omega), registerReplyBody_register _ _ hk]
  · obtain ⟨-, -, hreceived⟩ := hsucceeded
    rw [hreceived, hq]

end Sys2Proof.Machine
end

section
/-! The receive controller (R180 to R188): one iteration of its loop, whose whole effect is said once for a scripted
reading and answer, and the checks that follow the loop. -/

namespace Sys2Proof.Machine

variable {s t u : State} {r d : Nat} {ds : List Nat} {answer : Option Byte} {rest : List (Option Byte)}

theorem State.receiving.phase (h : s.receiving r) : s.e.phase = .awaitingReply := by
  obtain ⟨⟨-, -, hphase⟩, -⟩ := h
  exact hphase

theorem State.receiving.rxDone (h : s.receiving r) : s.rxDone = false := h.2

/-! ### The timeout test -/

/-- The test of an iteration, on the scripted reading (R181). -/
theorem responseTimedOut_readTimer_iff (hticks : s.ports.ticks = d :: ds) :
    responseTimedOut s.readTimer = true ↔ s.c.responseTimeoutMs.toNat < (s.nextReading d - s.e.t0).toNat := by
  rw [State.readTimer_script hticks]
  exact responseTimedOut_iff _

theorem step_receiving_timeout (hp : s.receiving r) (hticks : s.ports.ticks = d :: ds)
    (hpassed : s.c.responseTimeoutMs.toNat < (s.nextReading d - s.e.t0).toNat) :
    step s = .next s.readTimer.leaveReceiveLoop := by
  rw [step_receiving hp, receiveIteration, if_pos ((responseTimedOut_readTimer_iff hticks).mpr hpassed)]

/-- Settles O24, by the timeout test, which comes before the poll. -/
theorem receiveLoopEndsAtTheTimeout : Obligations.ReceiveLoopEndsAtTheTimeout := by
  intro s r d ds hp hticks hpassed
  rw [step_receiving_timeout hp hticks hpassed, State.readTimer_script hticks]
  rfl

/-! ### The poll -/

/-- The reading of an iteration leaves the scripted answer to its poll. -/
theorem State.pollAnswer_readTimer (hserial : s.ports.serialIn = answer :: rest) : s.readTimer.pollAnswer = answer := by
  simp only [State.pollAnswer, Ports.pollAnswer, State.readTimer_ports, Ports.passTime_serialIn, hserial]

/-- A poll changes the engine, and of the ports it consumes the answer; nothing else (R182). -/
theorem polledState_frame (s : State) :
    polledState s = { s with e := (polledState s).e, ports := s.ports.takePoll } := by
  rw [polledState_eq]
  split
  · rfl
  · split <;> rfl

theorem polledState_e_none (h : s.pollAnswer = none) :
    (polledState s).e = { s.e with polls := s.e.polls + 1 } := by
  rw [polledState_eq, h]

theorem polledState_e_stored {b : Byte} (h : s.pollAnswer = some b) (hroom : s.e.n < s.par.frameCap) :
    (polledState s).e =
      { s.e with fb := Cells.put unlistedByte s.e.n b s.e.fb, n := s.e.n + 1, polls := s.e.polls + 1 } := by
  simp only [polledState_eq, h, if_pos hroom]

theorem polledState_e_full {b : Byte} (h : s.pollAnswer = some b) (hfull : ¬ s.e.n < s.par.frameCap) :
    (polledState s).e = { s.e with ovf := true, polls := s.e.polls + 1 } := by
  simp only [polledState_eq, h, if_neg hfull]

/-- One iteration on a scripted reading within the timeout and a scripted answer: the reading and the answer are used,
the engine is as the poll leaves it, and the loop ends by the early check alone (R180). -/
theorem step_receiving_poll (hp : s.receiving r) (hticks : s.ports.ticks = d :: ds)
    (hwithin : (s.nextReading d - s.e.t0).toNat ≤ s.c.responseTimeoutMs.toNat)
    (hserial : s.ports.serialIn = answer :: rest) {e : Engine} (he : (polledState s.readTimer).e = e) :
    step s = .next
      { s with
        e := e
        ports := { s.ports with ticks := ds, time := s.ports.time + d, serialIn := rest }
        rxDone := earlyComplete { s with e := e } } := by
  have hin : ¬ responseTimedOut s.readTimer = true := by
    rw [responseTimedOut_readTimer_iff hticks]
    exact Nat.not_lt.mpr hwithin
  have hpolled : polledState s.readTimer =
      { s with e := e, ports := { s.ports with ticks := ds, time := s.ports.time + d, serialIn := rest } } := by
    rw [polledState_frame, he, State.readTimer_script hticks]
    simp only [Ports.takePoll, hserial]
  rw [step_receiving hp, receiveIteration, if_neg hin, pollOnce_eq, hpolled, State.readTimer_rxDone, hp.rxDone,
    Bool.false_or]
  rfl

/-- Settles O25, by the poll that stores its byte. -/
theorem polledByteIsStored : Obligations.PolledByteIsStored := by
  intro s r d ds b rest hp hticks hwithin hserial hroom
  have he := polledState_e_stored (State.pollAnswer_readTimer hserial) hroom
  exact ⟨_, step_receiving_poll hp hticks hwithin hserial he, Cells.get_put_same _ _ _ _,
    fun k hk => Cells.get_put_other _ _ k hk _ _, rfl, rfl, rfl, rfl, hp.phase, earlyComplete_iff _⟩

/-- Settles O26, by the poll that finds the buffer full. -/
theorem byteBeyondCapacitySetsOverflow : Obligations.ByteBeyondCapacitySetsOverflow := by
  intro s r d ds b rest hp hticks hwithin hserial hfull
  have he := polledState_e_full (State.pollAnswer_readTimer hserial) hfull.not_lt
  exact ⟨_, step_receiving_poll hp hticks hwithin hserial he, fun _ => rfl, rfl, rfl, rfl, rfl, earlyComplete_iff _⟩

/-- Settles O27, by the poll that is answered with no byte. -/
theorem emptyPollOnlyCounts : Obligations.EmptyPollOnlyCounts := by
  intro s r d ds rest hp hticks hwithin hserial
  have he := polledState_e_none (State.pollAnswer_readTimer hserial)
  exact ⟨_, step_receiving_poll hp hticks hwithin hserial he, fun _ => rfl, rfl, rfl, rfl, rfl, earlyComplete_iff _⟩

/-! ### The frame of an iteration -/

/-- What an iteration keeps, whatever the reading and the answer, besides what `receiveIteration_frame` says: of the
engine only the receive state changes, and of the frame buffer only bytes below the capacity (R188). -/
structure FrameFilled (s t : State) : Prop where
  engine : t.e = { s.e with fb := t.e.fb, n := t.e.n, ovf := t.e.ovf, polls := t.e.polls }
  beyond : ∀ k, s.par.frameCap ≤ k → t.fbByte k = s.fbByte k
  regs : t.regs = s.regs
  par : t.par = s.par
  hostIn : t.ports.hostIn = s.ports.hostIn

theorem frameFilled_readTimer (s : State) : FrameFilled s s.readTimer :=
  ⟨rfl, fun _ _ => rfl, rfl, rfl, Ports.passTime_hostIn _⟩

theorem FrameFilled.withRxDone (h : FrameFilled s t) (b : Bool) : FrameFilled s { t with rxDone := b } := { h with }

theorem FrameFilled.trans (h : FrameFilled s t) (k : FrameFilled t u) : FrameFilled s u where
  engine := by rw [k.engine, h.engine]
  beyond i hi := (k.beyond i (h.par ▸ hi)).trans (h.beyond i hi)
  regs := k.regs.trans h.regs
  par := k.par.trans h.par
  hostIn := k.hostIn.trans h.hostIn

/-- A poll stores its byte at `E.n` only while that is below the capacity (R182). -/
theorem frameFilled_polledState (s : State) : FrameFilled s (polledState s) := by
  have hhost := Ports.takePoll_hostIn s.ports
  rw [polledState_eq]
  split
  · exact ⟨rfl, fun _ _ => rfl, rfl, rfl, hhost⟩
  · split
    · next hroom =>
      have hother : ∀ k, s.par.frameCap ≤ k → k ≠ s.e.n := fun k hk => by omega
      exact ⟨rfl, fun k hk => Cells.get_put_other _ _ k (hother k hk) _ _, rfl, rfl, hhost⟩
    · exact ⟨rfl, fun _ _ => rfl, rfl, rfl, hhost⟩

theorem frameFilled_receiveIteration (s : State) : FrameFilled s (receiveIteration s) := by
  simp only [receiveIteration]
  split
  · exact (frameFilled_readTimer s).withRxDone true
  · rw [pollOnce_eq]
    exact ((frameFilled_readTimer s).trans (frameFilled_polledState _)).withRxDone _

/-- Settles O28, since an iteration only fills the frame. -/
theorem receiveLoopOnlyFillsTheFrame : Obligations.ReceiveLoopOnlyFillsTheFrame := by
  intro s t r hp hs
  rw [step_receiving hp] at hs; cases hs
  obtain ⟨htxns, hc, hcur, hphase, hout, -⟩ := receiveIteration_frame s
  obtain ⟨engine, beyond, hregs, hpar, hhost⟩ := frameFilled_receiveIteration s
  refine ⟨hout, htxns, hregs, hc, hpar, beyond, hcur, hphase.trans hp.phase, ?_, ?_, ?_, ?_, ?_, hhost⟩
  all_goals rw [engine]

/-! ### The exit checks -/

section

variable (hp : s.loopOver r)
include hp

theorem step_overflow (hovf : s.e.ovf = true) : step s = .next (takeFailure r .receiveOverflow s) := by
  rw [step_loopOver hp, if_pos hovf]

theorem step_tooShort (hovf : s.e.ovf = false) (hn : s.e.n < 5) :
    step s = .next (takeFailure r .receiveTooShort s) := by
  rw [step_loopOver hp, if_neg (by simp [hovf]), if_pos hn]

theorem step_otherSlave (hovf : s.e.ovf = false) (hn : 5 ≤ s.e.n) (hid : s.fbByte 0 ≠ (s.txn r).slaveId) :
    step s = .next (takeFailure r .unexpectedSlaveId s) := by
  rw [step_loopOver hp, if_neg (by simp [hovf]), if_neg (Nat.not_lt.mpr hn), if_pos hid]

theorem step_badChecksum (hovf : s.e.ovf = false) (hn : 5 ≤ s.e.n) (hid : s.fbByte 0 = (s.txn r).slaveId)
    (hcrc : ¬ s.crcHolds s.e.n) : step s = .next (takeFailure r .checksumMismatch s) := by
  rw [step_loopOver hp, if_neg (by simp [hovf]), if_neg (Nat.not_lt.mpr hn), if_neg (not_not.mpr hid),
    if_pos ((crcOk_eq_false_iff _ _).mpr hcrc)]

end

/-- A step that takes the failure path resolves the attempt and changes nothing else (R251, R162). -/
theorem step_failure_resolves {kind : ErrorKind} (hs : step s = .next (takeFailure r kind s)) :
    ∃ t, step s = .next t ∧ State.failedWith r kind s t ∧ State.sameButResolution r s t ∧
      ∀ a, t.entryAt a = s.entryAt a :=
  ⟨_, hs, takeFailure_failedWith r kind s, (takeFailure_frame r kind s).1, takeFailure_entryAt r kind s⟩

/-- Settles O29: each check that fails takes the failure path. -/
theorem exitChecksFailInOrder : Obligations.ExitChecksFailInOrder := fun _ _ hp =>
  ⟨fun hovf => step_failure_resolves (step_overflow hp hovf),
    fun hovf hn => step_failure_resolves (step_tooShort hp hovf hn),
    fun hovf hn hid => step_failure_resolves (step_otherSlave hp hovf hn hid),
    fun hovf hn hid hcrc => step_failure_resolves (step_badChecksum hp hovf hn hid hcrc)⟩

/-! ### A silent slave -/

/-- The state after `k` empty polls at one millisecond a reading, with what is left of the two scripts. -/
def State.afterSilence (k : Nat) (ticks : List Nat) (rest : List (Option Byte)) (s : State) : State :=
  { s with
    e := { s.e with polls := s.e.polls + k }
    ports := { s.ports with ticks := ticks, time := s.ports.time + k, serialIn := rest } }

theorem State.nextReading_afterSilence (s : State) (k j : Nat) (ticks : List Nat) (rest : List (Option Byte)) :
    (s.afterSilence k ticks rest).nextReading j = s.nextReading (k + j) :=
  congrArg (BitVec.ofNat 32) (Nat.add_assoc _ _ _)

/-- A resolution leaves the receive state. -/
theorem State.sameButResolution.receiveState (h : State.sameButResolution r s t) :
    t.e.n = s.e.n ∧ t.e.polls = s.e.polls := by
  obtain ⟨-, -, -, -, -, -, -, -, hn, -, hpolls, -⟩ := h
  exact ⟨hn, hpolls⟩

/-- A reading `k` milliseconds after the clock, while that is less than a turn of the timer (R13, R18). -/
theorem State.nextReading_sub_clock {k : Nat} (hk : k < 2 ^ 32) : (s.nextReading k - s.clock).toNat = k := by
  rw [State.nextReading, State.clock, BitVec.ofNat_add, BitVec.add_comm, BitVec.add_sub_cancel, BitVec.toNat_ofNat,
    Nat.mod_eq_of_lt hk]

theorem earlyComplete_of_short (h : s.e.n < 5) : earlyComplete s = false := by
  simp [earlyComplete, Nat.not_le.mpr h]

/-- An empty poll with nothing buffered: the early check cannot hold, so the loop goes on. -/
theorem step_silence (hp : s.receiving r) (hn : s.e.n = 0) (hticks : s.ports.ticks = 1 :: ds)
    (hserial : s.ports.serialIn = none :: rest)
    (hwithin : (s.nextReading 1 - s.e.t0).toNat ≤ s.c.responseTimeoutMs.toNat) :
    step s = .next (s.afterSilence 1 ds rest) := by
  have he : (polledState s.readTimer).e = { s.e with polls := s.e.polls + 1 } :=
    polledState_e_none (State.pollAnswer_readTimer hserial)
  have hshort : s.e.n < 5 := by omega
  rw [step_receiving_poll hp hticks hwithin hserial he, earlyComplete_of_short, State.afterSilence, hp.rxDone]
  exact hshort

/-- As many empty polls as readings stay within the timeout, by induction on their number. -/
theorem runSteps_silence {k : Nat} (hp : s.receiving r) (hn : s.e.n = 0)
    (hticks : s.ports.ticks = List.replicate k 1 ++ ds) (hserial : s.ports.serialIn = List.replicate k none ++ rest)
    (hwithin : ∀ j, j ≤ k → (s.nextReading j - s.e.t0).toNat ≤ s.c.responseTimeoutMs.toNat) :
    runSteps k s = .next (s.afterSilence k ds rest) := by
  induction k generalizing s with
  | zero =>
    simp only [List.replicate_zero, List.nil_append] at hticks hserial
    subst hticks hserial
    rfl
  | succ k ih =>
    have hstep : step s = .next (s.afterSilence 1 (List.replicate k 1 ++ ds) (List.replicate k none ++ rest)) :=
      step_silence hp hn hticks hserial (hwithin 1 (by omega))
    rw [runSteps_succ k hstep, ih (s := s.afterSilence 1 _ _) hp hn rfl rfl fun j hj => ?_]
    · simp only [State.afterSilence, Nat.add_assoc, Nat.add_comm 1 k]
    · rw [State.nextReading_afterSilence]
      exact hwithin (1 + j) (by omega)

/-- The whole wait: `T` empty polls, then the reading that passes the timeout ends the loop (R181). -/
theorem runSteps_silence_timeout {T : Nat} (hp : s.receiving r) (hT : T = s.c.responseTimeoutMs.toNat)
    (hlt : T < 2 ^ 32 - 1) (ht0 : s.e.t0 = s.clock) (hn : s.e.n = 0)
    (hticks : s.ports.ticks = List.replicate (T + 1) 1 ++ ds)
    (hserial : s.ports.serialIn = List.replicate T none ++ rest) :
    runSteps (T + 1) s = .next (s.afterSilence T (1 :: ds) rest).readTimer.leaveReceiveLoop := by
  have hreading : ∀ j, j ≤ T + 1 → (s.nextReading j - s.e.t0).toNat = j := fun j hj => by
    rw [ht0]
    exact State.nextReading_sub_clock (by omega)
  have hpolls : runSteps T s = .next (s.afterSilence T (1 :: ds) rest) := by
    refine runSteps_silence hp hn ?_ hserial fun j hj => ?_
    · rw [hticks, List.replicate_succ', List.append_assoc, List.singleton_append]
    · rw [hreading j (by omega)]; omega
  rw [runSteps_add T 1 hpolls]
  refine runSteps_one (step_receiving_timeout (d := 1) hp rfl ?_)
  have hlast : ((s.afterSilence T (1 :: ds) rest).nextReading 1 - s.e.t0).toNat = T + 1 := by
    rw [State.nextReading_afterSilence, hreading (T + 1) (le_refl _)]
  exact hlast ▸ Nat.lt_succ_of_le (le_of_eq hT.symm)

/-- Settles O60: the wait, then the check of the length, which takes the failure path. -/
theorem silentSlaveEndsInReceiveTooShort : Obligations.SilentSlaveEndsInReceiveTooShort := by
  intro s r T ds rest hp hT hlt ht0 hn hovf hticks hserial
  have hwait := runSteps_silence_timeout hp hT hlt ht0 hn hticks hserial
  have hover : (s.afterSilence T (1 :: ds) rest).readTimer.leaveReceiveLoop.loopOver r := ⟨hp.1, rfl⟩
  have hshort : s.e.n < 5 := by omega
  obtain ⟨t, ht, hfailed, hsame, -⟩ := step_failure_resolves (step_tooShort hover hovf hshort)
  obtain ⟨hreceived, hpolls⟩ := hsame.receiveState
  obtain ⟨hserialIn, -⟩ := hsame.serial
  refine ⟨t, ?_, hfailed, hpolls, hreceived.trans hn, hserialIn.trans (Ports.passTime_serialIn _)⟩
  rw [runSteps_add (T + 1) 1 hwait, runSteps_one ht]

end Sys2Proof.Machine
end

section
/-! The transaction engine (R200 to R208, R211): RUN, the end of a request that fits, consecutive failures, the
turnaround, Done, and the whole run of a broadcast. -/

namespace Sys2Proof.Machine

variable {s : State} {r k len need d : Nat} {i : Instr} {ds : List Nat}

/-! ### RUN -/

/-- Settles O38, by the rule of RUN with both checks passed. -/
theorem runStartsAnAttempt : Obligations.RunStartsAnAttempt := by
  intro s k hc hconfigured hconstructed
  rw [exec_run hc, if_neg (by simp [hconfigured]), if_neg (by simp [hconstructed])]

/-- The state in which an attempt on `k` begins (R200). -/
def State.attempting (k : Nat) (s : State) : State :=
  { s with e := { s.e with cur := some k, phase := .idle, outcome := none } }

/-- The step that takes a RUN call at the host port. -/
theorem step_run {record : List Byte} {rest : List HostInput} (hf : s.e.fault = none) (hc : s.e.cur = none)
    (hconfigured : s.e.configured = true) (hconstructed : (s.txn k).constructed = true)
    (hhost : s.ports.hostIn = .call record :: rest) (hcall : decode .host record = .ok (.run k)) :
    step s = .next ((s.hostTaken rest).attempting k) := by
  rw [step_call hf hc hhost, hcall]
  exact runStartsAnAttempt (s.hostTaken rest) k hc hconfigured hconstructed

/-- Settles O39, by the two checks of RUN in their order. -/
theorem runTooEarlyRaisesFault : Obligations.RunTooEarlyRaisesFault := by
  intro s k hc
  refine ⟨fun hconfigured => ?_, fun hconfigured hconstructed => ?_⟩
  · rw [exec_run hc, if_pos hconfigured]
    rfl
  · rw [exec_run hc, if_neg (by simp [hconfigured]), if_pos hconstructed]
    rfl

/-! ### A request that fits -/

/-- The state once a request is encoded, sent and counted (R130, R201). -/
def State.requestSent (r : Nat) (body : List Byte) (s : State) : State :=
  ((encodeFrame body s).serialSend (withCrc body)).modifyTxn r Txn.countRequest

theorem State.requestSent_txn (r : Nat) (body : List Byte) (s : State) :
    (s.requestSent r body).txn r = (s.txn r).countRequest := by
  simp [State.requestSent]

theorem State.requestSent_ports (r : Nat) (body : List Byte) (s : State) :
    (s.requestSent r body).ports =
      { s.ports with serialOut := s.ports.serialOut ++ [.sent (withCrc body)] } := by
  simp [State.requestSent, State.serialSend, State.serialWrite]

theorem exec_request_fits (hc : s.e.cur = some r)
    (hshape : requestShape s.par.coilRule (s.txn r).quantity.toNat i = some (len, need))
    (hlen : len ≤ s.par.frameCap) (hneed : need ≤ (s.txn r).rbLen) :
    ∃ body, body.length + 2 = len ∧ exec i s = .next (afterSend r (s.requestSent r body)) := by
  obtain ⟨body, hbody, hx⟩ := exec_request hc hshape
  exact ⟨body, hbody, hx.trans (runRequest_fits hlen hneed)⟩

theorem afterSend_requestSent_broadcast (body : List Byte) (hid : (s.txn r).slaveId = 0#8) :
    afterSend r (s.requestSent r body) = successHandler r (s.requestSent r body) :=
  afterSend_broadcast (by rw [State.requestSent_txn]; exact hid)

theorem afterSend_requestSent_slave (body : List Byte) (hid : (s.txn r).slaveId ≠ 0#8) :
    afterSend r (s.requestSent r body) = beginReceive (s.requestSent r body) :=
  afterSend_slave (by rw [State.requestSent_txn]; exact hid)

/-- Settles O11: the frame is sent and counted, and the receive phase writes its own registers afresh. -/
theorem requestOpensTheReceivePhase : Obligations.RequestOpensTheReceivePhase := by
  intro s r len need i hc hshape hlen hneed hid
  obtain ⟨body, rfl, hx⟩ := exec_request_fits hc hshape hlen hneed
  have hend := afterSend_requestSent_slave body hid
  have hsent : FrameSent r (body.length + 2) (withCrc body) s (beginReceive (s.requestSent r body)) :=
    hend ▸ (frameSent_encodeFrame r body s).afterSend
  exact ⟨_, _, hx.trans (congrArg _ hend), hsent.sent, hsent.length, State.requestSent_txn r body s, rfl, rfl, rfl,
    rfl, rfl, rfl, rfl, encodeFrame_tt body s, hsent.fault,
    (requestKeeps_encodeFrame r body s).beginReceive.serialIn⟩

/-! ### A broadcast -/

/-- From `s` a broadcast on `r` has sent this frame of `len` bytes and taken the success handler; the timer was read
once and nothing was received (R202, R204, R206). -/
structure BroadcastSent (r len : Nat) (frame : List Byte) (s t : State) : Prop where
  sent : FrameSent r len frame s t
  keeps : RequestKeeps r len s t
  succeeded : State.succeeded r s t
  n : t.e.n = s.e.n
  polls : t.e.polls = s.e.polls
  ovf : t.e.ovf = s.e.ovf
  t0 : t.e.t0 = s.e.t0
  ticks : t.ports.ticks = s.ports.passTime.ticks

theorem succeeded_successHandler_requestSent (r : Nat) (body : List Byte) (s : State) :
    State.succeeded r s (successHandler r (s.requestSent r body)) := by
  obtain ⟨hturning, hfault, hcounters⟩ := successHandler_succeeded r (s.requestSent r body)
  rw [State.requestSent_txn] at hcounters
  exact ⟨hturning, hfault.trans (encodeFrame_fault body s), hcounters⟩

/-- The script of the timer does not depend on what was sent. -/
theorem successHandler_requestSent_ticks (r : Nat) (body : List Byte) (s : State) :
    (successHandler r (s.requestSent r body)).ports.ticks = s.ports.passTime.ticks := by
  change (s.requestSent r body).ports.passTime.ticks = _
  rw [State.requestSent_ports]
  cases hticks : s.ports.ticks <;> simp [Ports.passTime, Ports.useFree, hticks]

/-- A broadcast that fits runs, whatever its function code. -/
theorem exec_broadcast (hc : s.e.cur = some r)
    (hshape : requestShape s.par.coilRule (s.txn r).quantity.toNat i = some (len, need))
    (hlen : len ≤ s.par.frameCap) (hneed : need ≤ (s.txn r).rbLen) (hid : (s.txn r).slaveId = 0#8) :
    ∃ t frame, exec i s = .next t ∧ BroadcastSent r len frame s t := by
  obtain ⟨body, rfl, hx⟩ := exec_request_fits hc hshape hlen hneed
  have hend := afterSend_requestSent_broadcast body hid
  refine ⟨_, withCrc body, hx.trans (congrArg _ hend), ?_⟩
  exact {
    sent := hend ▸ (frameSent_encodeFrame r body s).afterSend
    keeps := (requestKeeps_encodeFrame r body s).successHandler
    succeeded := succeeded_successHandler_requestSent r body s
    n := encodeFrame_n body s
    polls := encodeFrame_polls body s
    ovf := encodeFrame_ovf body s
    t0 := encodeFrame_t0 body s
    ticks := successHandler_requestSent_ticks r body s }

/-- Settles O10, since phase IDLE of a broadcast ends in the success handler. -/
theorem broadcastSkipsTheReply : Obligations.BroadcastSkipsTheReply := by
  intro s r len need i hc hshape hlen hneed hid
  obtain ⟨t, frame, hx, h⟩ := exec_broadcast hc hshape hlen hneed hid
  obtain ⟨-, hreceived, -⟩ := h.keeps.record
  exact ⟨t, frame, hx, h.sent.sent, h.sent.length, h.sent.counted, h.succeeded, hreceived, h.keeps.entries,
    h.keeps.serialIn, h.n, h.polls, h.ovf, h.t0⟩

/-! ### Consecutive failures -/

/-- The state after these failures of `r`, one after the other. -/
def takeFailures (r : Nat) (kinds : List ErrorKind) (s : State) : State :=
  kinds.foldl (fun s kind => takeFailure r kind s) s

/-- One failure short of the ceiling (R205, R207). -/
theorem takeFailure_below (kind : ErrorKind) (h : (s.txn r).retries.toNat + 1 < s.c.maxRetries.toNat) :
    ((takeFailure r kind s).txn r).retries.toNat = (s.txn r).retries.toNat + 1 ∧
      ((takeFailure r kind s).txn r).connectionActive = (s.txn r).connectionActive := by
  obtain ⟨-, -, -, -, -, -, -, -, hbelow⟩ := takeFailure_failedWith r kind s
  have hone : ((s.txn r).retries + 1#32).toNat = (s.txn r).retries.toNat + 1 := by bv_omega
  have hceiling : ¬ s.ceilingNext r := by rw [State.ceilingNext, hone]; omega
  obtain ⟨hretries, hactive⟩ := hbelow hceiling
  exact ⟨hretries ▸ hone, hactive⟩

/-- The failure that reaches the ceiling (R207). -/
theorem takeFailure_ceiling (kind : ErrorKind) (h : (s.txn r).retries.toNat + 1 = s.c.maxRetries.toNat) :
    ((takeFailure r kind s).txn r).retries = 0#32 ∧ ((takeFailure r kind s).txn r).connectionActive = false := by
  obtain ⟨-, -, -, -, -, -, -, hreached, -⟩ := takeFailure_failedWith r kind s
  refine hreached ?_
  rw [State.ceilingNext]
  bv_omega

/-- Failures that together stay below the ceiling add up, by induction on their list. -/
theorem takeFailures_below {kinds : List ErrorKind}
    (h : (s.txn r).retries.toNat + kinds.length < s.c.maxRetries.toNat) :
    ((takeFailures r kinds s).txn r).retries.toNat = (s.txn r).retries.toNat + kinds.length ∧
      ((takeFailures r kinds s).txn r).connectionActive = (s.txn r).connectionActive ∧
      (takeFailures r kinds s).c = s.c := by
  induction kinds generalizing s with
  | nil => exact ⟨rfl, rfl, rfl⟩
  | cons kind kinds ih =>
    rw [List.length_cons] at h ⊢
    obtain ⟨hretries, hactive⟩ := takeFailure_below (s := s) (r := r) kind (by omega)
    have hc : (takeFailure r kind s).c = s.c := rfl
    obtain ⟨hrest, hrestActive, hrestC⟩ := ih (s := takeFailure r kind s) (by rw [hretries, hc]; omega)
    exact ⟨hrest.trans (by omega), hrestActive.trans hactive, hrestC.trans hc⟩

/-- Settles O33: the failures before the last stay below the ceiling, and the m-th reaches it. -/
theorem consecutiveFailuresReachTheCeiling : Obligations.ConsecutiveFailuresReachTheCeiling := by
  intro s r kinds hzero hmax
  have hstart : (s.txn r).retries.toNat = 0 := by rw [hzero]; rfl
  refine ⟨fun hfewer => ?_, fun hall => ?_⟩
  · obtain ⟨hretries, hactive, -⟩ := takeFailures_below (s := s) (r := r) (kinds := kinds) (by omega)
    exact ⟨hretries.trans (by omega), hactive⟩
  · rcases List.eq_nil_or_concat kinds with rfl | ⟨before, last, rfl⟩
    · rw [List.length_nil] at hall; omega
    · rw [List.concat_eq_append, List.length_append, List.length_singleton] at hall
      obtain ⟨hretries, -, hc⟩ := takeFailures_below (s := s) (r := r) (kinds := before) (by omega)
      rw [List.concat_eq_append, List.foldl_append]
      exact takeFailure_ceiling (s := takeFailures r before s) last (by rw [hretries, hc]; omega)

/-! ### The turnaround and Done -/

/-- The test of the wait, on the scripted reading (R208). -/
theorem turnaroundOver_readTimer_iff (hticks : s.ports.ticks = d :: ds) :
    turnaroundOver s.readTimer = true ↔ s.c.turnaroundDelayMs.toNat < (s.nextReading d - s.e.tt).toNat := by
  rw [State.readTimer_script hticks]
  exact turnaroundOver_iff _

/-- The state after readings that the script made `k` milliseconds long in all, with what is left of the script. -/
def State.afterReadings (k : Nat) (ticks : List Nat) (s : State) : State :=
  { s with ports := { s.ports with ticks := ticks, time := s.ports.time + k } }

theorem State.nextReading_afterReadings (s : State) (k j : Nat) (ticks : List Nat) :
    (s.afterReadings k ticks).nextReading j = s.nextReading (k + j) :=
  congrArg (BitVec.ofNat 32) (Nat.add_assoc _ _ _)

/-- The state in phase DONE (R208). -/
def State.turnedAround (s : State) : State := { s with e := { s.e with phase := .done } }

theorem step_turnaround_over (hp : s.inPhase r .turnaroundDelay) (hticks : s.ports.ticks = d :: ds)
    (hover : s.c.turnaroundDelayMs.toNat < (s.nextReading d - s.e.tt).toNat) :
    step s = .next (s.afterReadings d ds).turnedAround := by
  rw [step_turnaround hp, turnaroundIteration, if_pos ((turnaroundOver_readTimer_iff hticks).mpr hover),
    State.readTimer_script hticks]
  rfl

theorem step_turnaround_within (hp : s.inPhase r .turnaroundDelay) (hticks : s.ports.ticks = d :: ds)
    (hwithin : (s.nextReading d - s.e.tt).toNat ≤ s.c.turnaroundDelayMs.toNat) :
    step s = .next (s.afterReadings d ds) := by
  have hnot : ¬ turnaroundOver s.readTimer = true := by
    rw [turnaroundOver_readTimer_iff hticks]; exact Nat.not_lt.mpr hwithin
  rw [step_turnaround hp, turnaroundIteration, if_neg hnot, State.readTimer_script hticks]
  rfl

/-- Settles O31, by the strict comparison of the wait. -/
theorem turnaroundWaitsForTheInterval : Obligations.TurnaroundWaitsForTheInterval := fun _ _ _ _ hp hticks =>
  ⟨step_turnaround_over hp hticks, step_turnaround_within hp hticks⟩

/-- Settles O32, by what Done writes. -/
theorem doneReturnsControl : Obligations.DoneReturnsControl := fun _ _ hp => step_done hp

/-! ### The whole wait -/

/-- As many readings as stay within the interval, by induction on their number. -/
theorem runSteps_turnaround_within {k : Nat} (hp : s.inPhase r .turnaroundDelay)
    (hticks : s.ports.ticks = List.replicate k 1 ++ ds)
    (hwithin : ∀ j, j ≤ k → (s.nextReading j - s.e.tt).toNat ≤ s.c.turnaroundDelayMs.toNat) :
    runSteps k s = .next (s.afterReadings k ds) := by
  induction k generalizing s with
  | zero =>
    rw [List.replicate_zero, List.nil_append] at hticks
    subst hticks
    rfl
  | succ k ih =>
    have hstep : step s = .next (s.afterReadings 1 (List.replicate k 1 ++ ds)) :=
      step_turnaround_within hp hticks (hwithin 1 (by omega))
    rw [runSteps_succ k hstep, ih (s := s.afterReadings 1 _) hp rfl fun j hj => ?_]
    · simp only [State.afterReadings, Nat.add_assoc, Nat.add_comm 1 k]
    · rw [State.nextReading_afterReadings]
      exact hwithin (1 + j) (by omega)

/-- From the start of the turnaround to the return: `d` readings within the interval, the one past it, Done (R206,
R208). -/
theorem runSteps_turnaround (hp : s.inPhase r .turnaroundDelay) (htt : s.e.tt = s.clock)
    (hd : d = s.c.turnaroundDelayMs.toNat) (hlt : d < 2 ^ 32 - 1)
    (hticks : s.ports.ticks = List.replicate (d + 1) 1 ++ ds) :
    runSteps (d + 2) s = .next (finishRun (s.afterReadings (d + 1) ds).turnedAround) := by
  have hreading : ∀ j, j ≤ d + 1 → (s.nextReading j - s.e.tt).toNat = j := fun j hj => by
    rw [htt]
    exact State.nextReading_sub_clock (by omega)
  have hwait : runSteps d s = .next (s.afterReadings d (1 :: ds)) := by
    refine runSteps_turnaround_within hp ?_ fun j hj => ?_
    · rw [hticks, List.replicate_succ', List.append_assoc, List.singleton_append]
    · rw [hreading j (by omega)]; omega
  have hlast : ((s.afterReadings d (1 :: ds)).nextReading 1 - s.e.tt).toNat = d + 1 := by
    rw [State.nextReading_afterReadings, hreading (d + 1) (le_refl _)]
  have hover : step (s.afterReadings d (1 :: ds)) = .next (s.afterReadings (d + 1) ds).turnedAround :=
    step_turnaround_over (d := 1) hp rfl (hlast ▸ Nat.lt_succ_of_le (le_of_eq hd.symm))
  obtain ⟨hfault, hcur, -⟩ := hp
  have hdone : (s.afterReadings (d + 1) ds).turnedAround.inPhase r .done := ⟨hfault, hcur, rfl⟩
  rw [runSteps_add d 2 hwait, runSteps_succ 1 hover, runSteps_one (step_done hdone)]

/-! ### The run of a broadcast -/

/-- Settles O59: the call, the request with the first reading, the wait, Done. -/
theorem broadcastRunCompletes : Obligations.BroadcastRunCompletes := by
  intro s k d len need i record rest ds hsafe hc hconfigured hconstructed hid hdecode hshape hlen hneed hcall hhost hd
    hlt hticks
  have hrun := step_run hsafe hc hconfigured hconstructed hhost hcall
  obtain ⟨v, frame, hx, hv⟩ :=
    exec_broadcast (s := (s.hostTaken rest).attempting k) (r := k) rfl hshape hlen hneed hid
  obtain ⟨-, hrequest, -⟩ := stepRunsTheDecodedOperation ((s.hostTaken rest).attempting k) i
  have hsend := (hrequest k ⟨hsafe, rfl, rfl⟩ hdecode).trans hx
  obtain ⟨⟨hphase, htt⟩, hfault, hsuccess, hretries, hfailed, -⟩ := hv.succeeded
  obtain ⟨-, hreceived, -⟩ := hv.keeps.record
  have hleft : v.ports.ticks = List.replicate (d + 1) 1 ++ ds := by
    rw [hv.ticks, Ports.passTime_cons _ 1 (List.replicate (d + 1) 1 ++ ds) hticks]
  have hinterval : d = v.c.turnaroundDelayMs.toNat := hv.keeps.c ▸ hd
  have hwait := runSteps_turnaround ⟨hfault.trans hsafe, hv.keeps.cur, hphase⟩ htt hinterval hlt hleft
  refine ⟨finishRun (v.afterReadings (d + 1) ds).turnedAround, ?_, rfl, rfl, hfault.trans hsafe,
    congrArg (· + 1#32) hv.keeps.dispatchCount, hv.sent.counted, hsuccess, hretries, hfailed, hreceived,
    hv.keeps.entries, hv.keeps.hostIn, hv.keeps.serialIn, frame, hv.sent.length, hv.sent.sent⟩
  rw [runSteps_succ (d + 3) hrun, runSteps_succ (d + 2) hsend, hwait]

end Sys2Proof.Machine
end

section
/-! The host commands (R233 to R236): CONFIGURE and CONSTRUCT between RUNs, every one of them during a RUN, and the
timer port over a step (R232). -/

namespace Sys2Proof.Machine

variable {s t u : State} {r : Nat}

/-! ### Time -/

/-- The turnaround starts with a reading of the timer (R206). -/
theorem startTurnaround_time_le (s : State) : s.ports.time ≤ (startTurnaround s).ports.time :=
  Ports.passTime_time_le _

/-- The receive phase starts with a reading of the timer (R180). -/
theorem beginReceive_time_le (s : State) : s.ports.time ≤ (beginReceive s).ports.time :=
  Ports.passTime_time_le _

theorem DataOnly.time (d : DataOnly s u) : u.ports.time = s.ports.time := by
  rw [d.ports]

/-- However a reply ends, time is kept or the turnaround's reading is made. -/
theorem ReplyEnds.time_le {m : Nat} (h : ReplyEnds r m s t) : s.ports.time ≤ t.ports.time := by
  rcases h with ⟨kind, u, d, -, rfl⟩ | ⟨u, d, -, rfl⟩ | ⟨f, u, d, -, rfl⟩
  · exact d.time ▸ startTurnaround_time_le _
  · exact d.time ▸ startTurnaround_time_le _
  · exact d.time.ge

theorem step_request_time_le (hp : s.inPhase r .idle) (hs : step s = .next t) : s.ports.time ≤ t.ports.time := by
  rcases step_request_cases hp hs with ⟨f, rfl⟩ | ⟨body, u, hu, hend⟩
  · exact le_refl _
  · have hsent : u.ports.time = s.ports.time := by simp [hu]
    rw [← hsent]
    rcases hend with ⟨-, rfl⟩ | ⟨-, rfl⟩
    · exact startTurnaround_time_le _
    · exact beginReceive_time_le u

/-- No host call reads the timer. -/
theorem step_call_time {record : List Byte} {rest : List HostInput} (hf : s.e.fault = none) (hc : s.e.cur = none)
    (hh : s.ports.hostIn = .call record :: rest) (hs : step s = .next t) : t.ports.time = s.ports.time := by
  rcases step_call_cases hf hc hh hs with ⟨f, rfl⟩ | ⟨_, _, _, -, rfl⟩ | ⟨_, _, _, _, _, _, _, -, rfl⟩ |
    ⟨_, -, rfl⟩ | ⟨_, -, rfl⟩
  all_goals rfl

/-- Settles O54, by the control point: a step leaves the time or reads the timer, and no reading goes back. -/
theorem timeNeverRunsBackwards : Obligations.TimeNeverRunsBackwards := by
  intro s t hs
  rcases step_points s with ⟨f, hf⟩ | ⟨hf, hc, hh⟩ | ⟨a, v, rest, hf, hc, hh⟩ | ⟨record, rest, hf, hc, hh⟩ |
    ⟨r, hp | hp | hp | hp | hp⟩
  · rw [step_faulted hf] at hs; cases hs
  · rw [step_waiting hf hc hh] at hs; cases hs; exact le_refl _
  · rw [step_store hf hc hh] at hs; cases hs; exact le_refl _
  · exact (step_call_time hf hc hh hs).ge
  · exact step_request_time_le hp hs
  · rw [step_receiving hp] at hs; cases hs
    obtain ⟨-, -, -, -, -, htime, -⟩ := receiveIteration_frame s
    exact htime
  · obtain ⟨m, he⟩ := step_loopOver_cases hp hs
    exact he.time_le
  · rw [step_turnaround hp] at hs; cases hs
    obtain ⟨-, -, -, -, -, htime, -⟩ := turnaroundIteration_frame s
    exact htime
  · rw [step_done hp] at hs; cases hs; exact le_refl _

/-! ### CONFIGURE -/

/-- T1.5 and T3.5 (R32) fit their 32-bit registers at every baud rate: a quotient is at most its dividend. -/
theorem toNat_ofNat_div {c : Nat} (hc : c < 2 ^ 32) (d : Nat) : (BitVec.ofNat 32 (c / d)).toNat = c / d :=
  (BitVec.toNat_ofNat _ _).trans (Nat.mod_eq_of_lt (lt_of_le_of_lt (Nat.div_le_self c d) hc))

/-- Settles O34, by the rule of CONFIGURE at a baud rate that is not 0. -/
theorem configureStoresTheRegisters : Obligations.ConfigureStoresTheRegisters := by
  intro s baud timeout delay retries count list hc hbaud
  refine ⟨_, (exec_configure hc).trans (congrArg _ (if_neg hbaud)), rfl, rfl, rfl, rfl, rfl, rfl, ?_, ?_, rfl, rfl, rfl,
    rfl, rfl, rfl, rfl⟩
  · exact toNat_ofNat_div (by decide) _
  · exact toNat_ofNat_div (by decide) _

/-- Settles O35, by the check of the baud rate, which comes before any write (R31). -/
theorem configureAtZeroBaudRaisesFault : Obligations.ConfigureAtZeroBaudRaisesFault := by
  intro s timeout delay retries count list hc
  rw [exec_configure hc, if_pos rfl]
  rfl

/-! ### CONSTRUCT -/

/-- Settles O36: the one write is the record, under its own reference. -/
theorem constructInitialisesTheRecord : Obligations.ConstructInitialisesTheRecord := by
  intro s k id f a q rb len hc hf
  have hsupported := (isSupportedFunction_iff f).mpr hf
  refine ⟨s.setTxn k (constructedTxn id f a q rb len), ?_, ?_, fun j hj => ?_, rfl, rfl, rfl, rfl, rfl, rfl⟩
  · rw [exec_construct hc, if_pos hsupported]
  · rw [State.setTxn_txn, if_pos rfl]
    rfl
  · rw [State.setTxn_txn, if_neg hj]

/-- Settles O37, by the check of the function code, which comes before any write (R234). -/
theorem constructUnsupportedRaisesFault : Obligations.ConstructUnsupportedRaisesFault := by
  intro s k id f a q rb len hc hf
  rw [exec_construct hc, if_neg (mt (isSupportedFunction_iff f).mp hf)]
  rfl

/-! ### During a RUN -/

/-- Settles O40, by the operation: CONFIGURE, CONSTRUCT and RUN are each guarded by there being no RUN. -/
theorem hostOperationDuringRunIsNoMove : Obligations.HostOperationDuringRunIsNoMove := by
  intro s r i hc hhost hcrc
  cases i with
  | configure | construct | run => exact whenNoRun_busy hc
  | crc bytes => exact absurd rfl (hcrc bytes)
  | _ => simp [Instr.space] at hhost

end Sys2Proof.Machine
end

section
/-! Every step answers (R101, R130, R251, R260): an operation met where it belongs answers a next state, so a state with
the invariant is left by a step unless it waits on bytes that are no call; a model fault ends the run. -/

namespace Sys2Proof.Machine

variable {s : State} {r : Nat}

/-! ### A model fault -/

/-- Settles O46: a step reads the fault before anything else. -/
theorem faultIsFinal : Obligations.FaultIsFinal := fun _ _ => step_faulted

/-! ### Operations where they belong -/

/-- Both checks of a request raise a fault in a next state, and past them the request is sent (R130). -/
theorem runRequest_answers (r : Nat) (body : List Byte) (len need : Nat) (s : State) :
    ∃ t, runRequest r body len need s = .next t := by
  rcases Nat.lt_or_ge s.par.frameCap len with hlong | hfits
  · exact ⟨_, runRequest_tooLong hlong⟩
  · rcases Nat.lt_or_ge (s.txn r).rbLen need with hsmall | hneed
    · exact ⟨_, runRequest_noBuffer hfits hsmall⟩
    · exact ⟨_, runRequest_fits hfits hneed⟩

/-- Between RUNs no host operation is refused: a check that fails raises a fault in a next state (R233, R234, R200). -/
theorem exec_host_answers {i : Instr} (hc : s.e.cur = none) (hi : i.space = .host) : ∃ t, exec i s = .next t := by
  cases i with
  | configure baud timeout delay retries list count => exact ⟨_, exec_configure hc⟩
  | construct k id f a q rb len => exact ⟨_, exec_construct hc⟩
  | run k => exact ⟨_, exec_run hc⟩
  | crc bytes => exact ⟨_, exec_crc bytes s⟩
  | _ => simp [Instr.space] at hi

/-! ### Steps -/

/-- A call at the host port is run when its bytes decode and is refused when they do not. -/
theorem step_call_answers {record : List Byte} {rest : List HostInput} (hf : s.e.fault = none) (hc : s.e.cur = none)
    (hh : s.ports.hostIn = .call record :: rest) :
    (∃ t, step s = .next t) ∨ ∃ why, step s = .refused (.undecoded why) := by
  rw [step_call hf hc hh]
  rcases hd : decode .host record with why | i
  · exact .inr ⟨why, rfl⟩
  · exact .inl (exec_host_answers (s := s.hostTaken rest) hc (decodeHost_space hd))

/-- The driven Transaction is constructed, so its function code selects one of the six requests (R130, R234). -/
theorem step_request_answers (h : s.Inv) (hp : s.inPhase r .idle) : ∃ t, step s = .next t := by
  obtain ⟨-, hconstructed⟩ := h.driven r hp.2.1
  obtain ⟨i, hd⟩ := decodeRequest_supported (h.supported r hconstructed)
  obtain ⟨len, need, hshape⟩ := decodeRequest_shape hd s.par.coilRule (s.txn r).quantity.toNat
  obtain ⟨body, -, hx⟩ := exec_request hp.2.1 hshape
  rw [step_request hp, hd]
  simp only [hx]
  exact runRequest_answers r body len need s

/-- Each exit check that fails takes the failure path (R251), and every reply byte has a class (R101). -/
theorem step_loopOver_answers (hp : s.loopOver r) : ∃ t, step s = .next t := by
  rw [step_loopOver hp]
  split_ifs
  · exact ⟨_, rfl⟩
  · exact ⟨_, rfl⟩
  · exact ⟨_, rfl⟩
  · exact ⟨_, rfl⟩
  · obtain ⟨t, ht, -⟩ := reply_ends (decodeReplyByte_space (s.fbByte 1)) hp.1.2.1
    exact ⟨t, ht⟩

/-- Settles O45, by the control point: only a call is decoded from bytes that may be no operation. -/
theorem engineIsNeverStuck : Obligations.EngineIsNeverStuck := by
  intro s h hsafe
  rcases step_points s with ⟨f, hf⟩ | ⟨hf, hc, hh⟩ | ⟨a, v, rest, hf, hc, hh⟩ | ⟨record, rest, hf, hc, hh⟩ |
    ⟨r, hp | hp | hp | hp | hp⟩
  · cases hsafe.symm.trans hf
  · exact .inl ⟨_, step_waiting hf hc hh⟩
  · exact .inl ⟨_, step_store hf hc hh⟩
  · exact (step_call_answers hf hc hh).imp_right fun hrefused => ⟨hc, hrefused⟩
  · exact .inl (step_request_answers h hp)
  · exact .inl ⟨_, step_receiving hp⟩
  · exact .inl (step_loopOver_answers hp)
  · exact .inl ⟨_, step_turnaround hp⟩
  · exact .inl ⟨_, step_done hp⟩

end Sys2Proof.Machine
end

section
/-! Reset (R280): the engine waits between RUNs with nothing stored and nothing received, so the invariant starts there and
holds along every run. -/

namespace Sys2Proof.Machine

/-! ### The state after reset -/

/-- Settles O42, by R280's table: each field has the value `State.reset` writes. -/
theorem resetLeavesTheEngineIdle : Obligations.ResetLeavesTheEngineIdle :=
  ⟨rfl, rfl, rfl, rfl, rfl, rfl, rfl, rfl, rfl, rfl, rfl⟩

/-- The reference capacity of 100 bytes is one R9 admits, whatever the open P_EARLY_POLLS is. -/
theorem reference_admitted : Config.reference.admitted := by decide

/-- Settles O43: the stores are empty, the counters are 0 and no RUN is driven, so of the invariant's clauses only the
capacity and the canonical form of the stores say something of this state. -/
theorem resetMeetsTheInvariant : Obligations.ResetMeetsTheInvariant where
  params := reference_admitted
  memory := Memory.wf_reset
  frame := fun _ hmem => absurd hmem List.not_mem_nil
  received := Nat.zero_le _
  encoded := Nat.zero_le _
  overflow := fun hovf => nomatch hovf
  between := fun _ => rfl
  loopLeft := fun hdone => nomatch hdone
  driven := fun _ hcur => nomatch hcur
  records := fun _ hmem => absurd hmem List.not_mem_nil

/-! ### Runs from reset -/

/-- A run keeps the invariant, since each of its steps does (O44). -/
theorem runSteps_inv {s t : State} {n : Nat} (h : s.Inv) (hrun : runSteps n s = .next t) : t.Inv := by
  induction n generalizing s with
  | zero => cases hrun; exact h
  | succ n ih =>
    rcases hs : step s with u | f | why
    · rw [runSteps_succ n hs] at hrun
      exact ih (everyStepKeepsTheInvariant s u h hs) hrun
    · rw [runSteps, hs] at hrun; cases hrun
    · rw [runSteps, hs] at hrun; cases hrun

/-- What the host reaches from the core's reset has the invariant. -/
theorem core_run_reset_inv {t : State} {n : Nat} (hrun : Sys2Proof.core.run n Sys2Proof.core.reset = .next t) : t.Inv :=
  runSteps_inv resetMeetsTheInvariant ((core_run_eq n State.reset).symm.trans hrun)

end Sys2Proof.Machine
end
